-- ==== Sys2Proof/Word.lean ====
section
/-! DEFINITION. The word types of the core (R6, R8 of spec/00_scope.md): every value is an unsigned integer of a
fixed width, no instruction reads one as signed. -/

namespace Sys2Proof

/-- XLEN = 8: a general register, DT, ST, SP, a memory byte (R6). -/
abbrev Byte := BitVec 8

/-- ILEN = PCLEN = 16: I, PC and the instruction word `ir` (R6, R80). -/
abbrev Word := BitVec 16

/-- The 12-bit immediate `nnn` (R10). -/
abbrev Addr := BitVec 12

/-- A 4-bit field: a row count `n` or a key number (R10, R212). -/
abbrev Nibble := BitVec 4

/-- A 4-bit register index, from nibble 2 or 3 of the instruction word; all 16 values are registers (R10, R82). -/
abbrev Reg := BitVec 4

/-- VF, the register that six instructions also write as a flag (R22). -/
def regF : Reg := 15#4

end Sys2Proof
end

