-- ==== Sys2Proof/Syntax.lean ====
section
/-! DEFINITION. The instruction set: the 34 rows of spec/opcode_table.json (R84 of spec/30_encoding.md), one
constructor each, in the table's order. A word that selects no row is no instruction (R88): it has no constructor,
and the step runs it as the no-op of R111. -/

namespace Sys2Proof

/-- One instruction with its operand fields (R10, R82): `x`, `y` register indices, `nnn` a 12-bit value, `kk` a byte,
`n` a row count. Each field's type holds exactly the values the field of the word can hold, all of them legal. -/
inductive Instr where
  /-- 00E0 `CLS` (R184) -/
  | cls
  /-- 00EE `RET` (R103) -/
  | ret
  /-- 1nnn `JP addr` (R104) -/
  | jp (nnn : Addr)
  /-- 2nnn `CALL addr` (R105) -/
  | call (nnn : Addr)
  /-- 3xkk `SE Vx, byte` (R106) -/
  | seImm (x : Reg) (kk : Byte)
  /-- 4xkk `SNE Vx, byte` (R107) -/
  | sneImm (x : Reg) (kk : Byte)
  /-- 5xy0 `SE Vx, Vy` (R108) -/
  | seReg (x y : Reg)
  /-- 6xkk `LD Vx, byte` (R131) -/
  | ldImm (x : Reg) (kk : Byte)
  /-- 7xkk `ADD Vx, byte` (R132) -/
  | addImm (x : Reg) (kk : Byte)
  /-- 8xy0 `LD Vx, Vy` (R133) -/
  | ldReg (x y : Reg)
  /-- 8xy1 `OR Vx, Vy` (R134) -/
  | orReg (x y : Reg)
  /-- 8xy2 `AND Vx, Vy` (R135) -/
  | andReg (x y : Reg)
  /-- 8xy3 `XOR Vx, Vy` (R136) -/
  | xorReg (x y : Reg)
  /-- 8xy4 `ADD Vx, Vy` (R137) -/
  | addReg (x y : Reg)
  /-- 8xy5 `SUB Vx, Vy` (R138) -/
  | sub (x y : Reg)
  /-- 8xy6 `SHR Vx` (R139); the field `y` is in the word and ignored (R86) -/
  | shr (x y : Reg)
  /-- 8xy7 `SUBN Vx, Vy` (R140) -/
  | subn (x y : Reg)
  /-- 8xyE `SHL Vx` (R141); the field `y` is in the word and ignored (R86) -/
  | shl (x y : Reg)
  /-- 9xy0 `SNE Vx, Vy` (R109) -/
  | sneReg (x y : Reg)
  /-- Annn `LD I, addr` (R160) -/
  | ldI (nnn : Addr)
  /-- Bnnn `JP V0, addr` (R110) -/
  | jpV0 (nnn : Addr)
  /-- Cxkk `RND Vx, byte` (R142) -/
  | rnd (x : Reg) (kk : Byte)
  /-- Dxyn `DRW Vx, Vy, nibble` (R185) -/
  | drw (x y : Reg) (n : Nibble)
  /-- Ex9E `SKP Vx` (R200) -/
  | skp (x : Reg)
  /-- ExA1 `SKNP Vx` (R201) -/
  | sknp (x : Reg)
  /-- Fx07 `LD Vx, DT` (R202) -/
  | ldVxDt (x : Reg)
  /-- Fx0A `LD Vx, K` (R203) -/
  | ldVxK (x : Reg)
  /-- Fx15 `LD DT, Vx` (R204) -/
  | ldDtVx (x : Reg)
  /-- Fx18 `LD ST, Vx` (R205) -/
  | ldStVx (x : Reg)
  /-- Fx1E `ADD I, Vx` (R161) -/
  | addI (x : Reg)
  /-- Fx29 `LD F, Vx` (R162) -/
  | ldF (x : Reg)
  /-- Fx33 `LD B, Vx` (R163) -/
  | ldB (x : Reg)
  /-- Fx55 `LD [I], Vx` (R164) -/
  | ldMemVx (x : Reg)
  /-- Fx65 `LD Vx, [I]` (R165) -/
  | ldVxMem (x : Reg)
  deriving DecidableEq, Repr

/-- One row of the opcode table (R83, R84): a word `ir` selects it when `ir &&& mask = pattern`, and `build` reads the
row's fields out of such a word. -/
structure OpRow where
  pattern : Word
  mask : Word
  build : Word → Instr

/-- The test of R83: does the word select the row? -/
def OpRow.selects (r : OpRow) (ir : Word) : Bool := ir &&& r.mask == r.pattern

end Sys2Proof
end

