-- ==== Sys2Proof/Config.lean ====
section
/-! DEFINITION. The parameters the source fixes (R6 of spec/00_scope.md) and the one free value, the random byte.
The parameters that are the spec's own decisions (font offset and table, stack page) stand in
Sys2Proof/Machine/Font.lean and Sys2Proof/Machine/Ops.lean. -/

namespace Sys2Proof.Config

/-- MEMSIZE: bytes of memory, addresses 0x000 to 0xFFF (R6, R50). -/
def memSize : Nat := 4096

/-- PROG_BASE: the load address and the reset value of PC (R6). -/
def progBase : Nat := 0x200

/-- The longest byte sequence LOAD accepts, 4096 - 0x200 = 3584 (R238). -/
def maxLoad : Nat := memSize - progBase

/-- The random byte of Cxkk, a FREE VALUE: the n-th draw since power-on, under no law at all (R147, the spec's
decision D14). It has no body, so nothing can be proved of a value of it. Log 1. -/
opaque rnd : Nat → Byte

end Sys2Proof.Config
end

