-- ==== Sys2Proof/WellFormed.lean ====
section
/-! DEFINITION. What the types of the syntax do not say by themselves. An `Instr` needs no check of its own: each
operand's type holds exactly the values its field can hold, and every one of them is legal (R82, R87 of
spec/30_encoding.md). What can be ill-formed is a row or a table of rows (R83), a byte sequence handed to LOAD (R238)
and a font table with its offset (R33, D12). -/

namespace Sys2Proof

/-- A row's pattern has bits only under its mask: another row could never be selected. -/
def OpRow.wf (r : OpRow) : Bool := r.pattern &&& r.mask == r.pattern

/-- Two rows have no word in common: they differ in a bit that both masks look at. -/
def OpRow.disjoint (r q : OpRow) : Bool := (r.pattern ^^^ q.pattern) &&& (r.mask &&& q.mask) != 0

/-- A table whose rows are well formed and never overlap: "No two rows overlap, so the order of matching does not
matter" (R83). -/
def tableWf : List OpRow → Bool
  | [] => true
  | r :: rest => r.wf && rest.all (r.disjoint ·) && tableWf rest

/-- LOAD accepts at most 3584 bytes: 0x200 + L ≤ 4096 (R238). -/
def loadFits (bytes : List Byte) : Bool := bytes.length ≤ Config.maxLoad

/-- A font table is 80 bytes (R33) and ends at or below the stack page: FONT_OFFSET + 80 ≤ 0x100 (D12). -/
def fontWf (offset : Nat) (table : List Byte) : Bool := table.length == 80 && offset + 80 ≤ 0x100

end Sys2Proof
end

