-- ==== Sys2Proof/Decode.lean ====
section
/-! DEFINITION. Decoding and encoding (spec/30_encoding.md): the opcode table R84 with its masks, the decoder R83,
which is total and rejects a word of no row by name (R88), the encoder from the formats R81, and the assembler
spelling R91. -/

namespace Sys2Proof

/-- `x = ir[11:8]` (R10). -/
def fieldX (ir : Word) : Reg := ir.extractLsb' 8 4

/-- `y = ir[7:4]` (R10). -/
def fieldY (ir : Word) : Reg := ir.extractLsb' 4 4

/-- `n = ir[3:0]` (R10). -/
def fieldN (ir : Word) : Nibble := ir.extractLsb' 0 4

/-- `kk = ir[7:0]` (R10). -/
def fieldKk (ir : Word) : Byte := ir.extractLsb' 0 8

/-- `nnn = ir[11:0]` (R10). -/
def fieldNnn (ir : Word) : Addr := ir.extractLsb' 0 12

/-- A row of format FIXED: the whole word is the pattern (R83, R85; D20, log 15). -/
def rowFixed (pattern : Word) (i : Instr) : OpRow := ⟨pattern, 0xFFFF, fun _ => i⟩

/-- A row of format NNN: the family nibble alone selects it (R81, R83). -/
def rowNnn (pattern : Word) (make : Addr → Instr) : OpRow := ⟨pattern, 0xF000, fun ir => make (fieldNnn ir)⟩

/-- A row of format XKK (R81, R83). -/
def rowXkk (pattern : Word) (make : Reg → Byte → Instr) : OpRow :=
  ⟨pattern, 0xF000, fun ir => make (fieldX ir) (fieldKk ir)⟩

/-- A row of format XYS: family and low nibble select it (R81, R83). -/
def rowXys (pattern : Word) (make : Reg → Reg → Instr) : OpRow :=
  ⟨pattern, 0xF00F, fun ir => make (fieldX ir) (fieldY ir)⟩

/-- A row of format XYN (R81, R83). -/
def rowXyn (pattern : Word) (make : Reg → Reg → Nibble → Instr) : OpRow :=
  ⟨pattern, 0xF000, fun ir => make (fieldX ir) (fieldY ir) (fieldN ir)⟩

/-- A row of format XSS: family and low byte select it (R81, R83). -/
def rowXss (pattern : Word) (make : Reg → Instr) : OpRow := ⟨pattern, 0xF0FF, fun ir => make (fieldX ir)⟩

/-- The complete opcode table, 34 rows in the source's order (R84). -/
def opcodeTable : List OpRow :=
  [rowFixed 0x00E0 .cls, rowFixed 0x00EE .ret,
   rowNnn 0x1000 .jp, rowNnn 0x2000 .call,
   rowXkk 0x3000 .seImm, rowXkk 0x4000 .sneImm, rowXys 0x5000 .seReg,
   rowXkk 0x6000 .ldImm, rowXkk 0x7000 .addImm,
   rowXys 0x8000 .ldReg, rowXys 0x8001 .orReg, rowXys 0x8002 .andReg, rowXys 0x8003 .xorReg,
   rowXys 0x8004 .addReg, rowXys 0x8005 .sub, rowXys 0x8006 .shr, rowXys 0x8007 .subn, rowXys 0x800E .shl,
   rowXys 0x9000 .sneReg,
   rowNnn 0xA000 .ldI, rowNnn 0xB000 .jpV0, rowXkk 0xC000 .rnd, rowXyn 0xD000 .drw] ++
  [rowXss 0xE09E .skp, rowXss 0xE0A1 .sknp,
   rowXss 0xF007 .ldVxDt, rowXss 0xF00A .ldVxK, rowXss 0xF015 .ldDtVx, rowXss 0xF018 .ldStVx,
   rowXss 0xF01E .addI, rowXss 0xF029 .ldF, rowXss 0xF033 .ldB, rowXss 0xF055 .ldMemVx, rowXss 0xF065 .ldVxMem]

/-- What the decoder answers: an instruction, or the word that selects no row (R83, R88). -/
inductive Decoded where
  | instr (i : Instr)
  | unmatched (ir : Word)
  deriving DecidableEq, Repr

/-- Decode (R83): the row whose `(ir & mask) = match`. -/
def decodeWord (ir : Word) : Decoded :=
  match opcodeTable.find? (·.selects ir) with
  | some r => .instr (r.build ir)
  | none => .unmatched ir

/-- Decode two fetched bytes, the one at the lower address first: it is `ir[15:8]` (R54, R80). -/
def decode (hi lo : Byte) : Decoded := decodeWord (hi ++ lo)

/-- The two bytes of a word as memory holds them, the high one at the lower address (R54). -/
def wordBytes (ir : Word) : Byte × Byte := (ir.extractLsb' 8 8, ir.extractLsb' 0 8)

/-- The word that stands for `nbits` given bits numbered as spec/opcode_table.json numbers them: bits at or above
`nbits` are 0, and an instruction has 16. -/
def tableWord (nbits w : Nat) : Word := BitVec.ofNat 16 (w % 2 ^ nbits)

/-- The host's question: what the decoder reads from an instruction with these bits, laid out in memory. -/
def decodeTableWord (nbits w : Nat) : Option Instr :=
  let bytes := wordBytes (tableWord nbits w)
  match decode bytes.1 bytes.2 with
  | .instr i => some i
  | .unmatched _ => none

/-- The encoder: the nibbles of each format as R81 places them, with the family and selector of R84. -/
def encode : Instr → Word
  | .cls => 0x00E0#16
  | .ret => 0x00EE#16
  | .jp nnn => 0x1#4 ++ nnn
  | .call nnn => 0x2#4 ++ nnn
  | .seImm x kk => 0x3#4 ++ x ++ kk
  | .sneImm x kk => 0x4#4 ++ x ++ kk
  | .seReg x y => 0x5#4 ++ x ++ y ++ 0x0#4
  | .ldImm x kk => 0x6#4 ++ x ++ kk
  | .addImm x kk => 0x7#4 ++ x ++ kk
  | .ldReg x y => 0x8#4 ++ x ++ y ++ 0x0#4
  | .orReg x y => 0x8#4 ++ x ++ y ++ 0x1#4
  | .andReg x y => 0x8#4 ++ x ++ y ++ 0x2#4
  | .xorReg x y => 0x8#4 ++ x ++ y ++ 0x3#4
  | .addReg x y => 0x8#4 ++ x ++ y ++ 0x4#4
  | .sub x y => 0x8#4 ++ x ++ y ++ 0x5#4
  | .shr x y => 0x8#4 ++ x ++ y ++ 0x6#4
  | .subn x y => 0x8#4 ++ x ++ y ++ 0x7#4
  | .shl x y => 0x8#4 ++ x ++ y ++ 0xE#4
  | .sneReg x y => 0x9#4 ++ x ++ y ++ 0x0#4
  | .ldI nnn => 0xA#4 ++ nnn
  | .jpV0 nnn => 0xB#4 ++ nnn
  | .rnd x kk => 0xC#4 ++ x ++ kk
  | .drw x y n => 0xD#4 ++ x ++ y ++ n
  | .skp x => 0xE#4 ++ x ++ 0x9E#8
  | .sknp x => 0xE#4 ++ x ++ 0xA1#8
  | .ldVxDt x => 0xF#4 ++ x ++ 0x07#8
  | .ldVxK x => 0xF#4 ++ x ++ 0x0A#8
  | .ldDtVx x => 0xF#4 ++ x ++ 0x15#8
  | .ldStVx x => 0xF#4 ++ x ++ 0x18#8
  | .addI x => 0xF#4 ++ x ++ 0x1E#8
  | .ldF x => 0xF#4 ++ x ++ 0x29#8
  | .ldB x => 0xF#4 ++ x ++ 0x33#8
  | .ldMemVx x => 0xF#4 ++ x ++ 0x55#8
  | .ldVxMem x => 0xF#4 ++ x ++ 0x65#8

/-- The two bytes an assembler writes for the instruction, lower address first. -/
def encodeBytes (i : Instr) : Byte × Byte := wordBytes (encode i)

/-- One hexadecimal digit. -/
def hexDigit (n : Nat) : String :=
  if n < 10 then toString n
  else ["A", "B", "C", "D", "E", "F"].getD (n - 10) "F"

/-- A value of `digits` hexadecimal digits, most significant first, without 0x. -/
def hexDigits : Nat → Nat → String
  | 0, _ => ""
  | digits + 1, n => hexDigits digits (n / 16) ++ hexDigit (n % 16)

/-- `Vx` with one hexadecimal digit (R91). -/
def asmReg (x : Reg) : String := "V" ++ hexDigit x.toNat

/-- A 12-bit operand 0x000 to 0xFFF (R91). -/
def asmAddr (nnn : Addr) : String := "0x" ++ hexDigits 3 nnn.toNat

/-- A byte operand 0x00 to 0xFF (R91). -/
def asmByte (kk : Byte) : String := "0x" ++ hexDigits 2 kk.toNat

/-- The ignored field of SHR and SHL: `SHR Vx` when it is 0, the two-operand spelling otherwise (R91). -/
def asmIgnored (y : Reg) : String := if y = 0 then "" else ", " ++ asmReg y

/-- The assembler spelling of an instruction (R84's syntax column, R91; D23: it carries no meaning). -/
def asm : Instr → String
  | .cls => "CLS"
  | .ret => "RET"
  | .jp nnn => "JP " ++ asmAddr nnn
  | .call nnn => "CALL " ++ asmAddr nnn
  | .seImm x kk => "SE " ++ asmReg x ++ ", " ++ asmByte kk
  | .sneImm x kk => "SNE " ++ asmReg x ++ ", " ++ asmByte kk
  | .seReg x y => "SE " ++ asmReg x ++ ", " ++ asmReg y
  | .ldImm x kk => "LD " ++ asmReg x ++ ", " ++ asmByte kk
  | .addImm x kk => "ADD " ++ asmReg x ++ ", " ++ asmByte kk
  | .ldReg x y => "LD " ++ asmReg x ++ ", " ++ asmReg y
  | .orReg x y => "OR " ++ asmReg x ++ ", " ++ asmReg y
  | .andReg x y => "AND " ++ asmReg x ++ ", " ++ asmReg y
  | .xorReg x y => "XOR " ++ asmReg x ++ ", " ++ asmReg y
  | .addReg x y => "ADD " ++ asmReg x ++ ", " ++ asmReg y
  | .sub x y => "SUB " ++ asmReg x ++ ", " ++ asmReg y
  | .shr x y => "SHR " ++ asmReg x ++ asmIgnored y
  | .subn x y => "SUBN " ++ asmReg x ++ ", " ++ asmReg y
  | .shl x y => "SHL " ++ asmReg x ++ asmIgnored y
  | .sneReg x y => "SNE " ++ asmReg x ++ ", " ++ asmReg y
  | .ldI nnn => "LD I, " ++ asmAddr nnn
  | .jpV0 nnn => "JP V0, " ++ asmAddr nnn
  | .rnd x kk => "RND " ++ asmReg x ++ ", " ++ asmByte kk
  | .drw x y n => "DRW " ++ asmReg x ++ ", " ++ asmReg y ++ ", " ++ toString n.toNat
  | .skp x => "SKP " ++ asmReg x
  | .sknp x => "SKNP " ++ asmReg x
  | .ldVxDt x => "LD " ++ asmReg x ++ ", DT"
  | .ldVxK x => "LD " ++ asmReg x ++ ", K"
  | .ldDtVx x => "LD DT, " ++ asmReg x
  | .ldStVx x => "LD ST, " ++ asmReg x
  | .addI x => "ADD I, " ++ asmReg x
  | .ldF x => "LD F, " ++ asmReg x
  | .ldB x => "LD B, " ++ asmReg x
  | .ldMemVx x => "LD [I], " ++ asmReg x
  | .ldVxMem x => "LD " ++ asmReg x ++ ", [I]"

/-- The spelling of a raw word, for one that selects no row (R91). -/
def asmWord (ir : Word) : String :=
  match decodeWord ir with
  | .instr i => asm i
  | .unmatched w => ".word 0x" ++ hexDigits 4 w.toNat

end Sys2Proof
end

