-- ==== Sys2Proof/Machine/Font.lean ====
section
/-! DEFINITION. The font (R33 of spec/10_state.md): the constant table of sixteen five-byte glyphs and the address of
its copy in memory. -/

namespace Sys2Proof.Machine

/-- FONT_OFFSET, the address of the font copy (R6; the spec's decision D12, log 5). -/
def fontOffset : Nat := 0x000

/-- FONT: glyph d occupies bytes 5d to 5d + 4, one row a byte, the leftmost pixel in the highest bit (R33). Glyph 0 is
the source's; the other fifteen carry the spec's mark 'from general knowledge' (D13, log 5). -/
def fontTable : List Byte :=
  [0xF0, 0x90, 0x90, 0x90, 0xF0,  0x20, 0x60, 0x20, 0x20, 0x70,  0xF0, 0x10, 0xF0, 0x80, 0xF0,
   0xF0, 0x10, 0xF0, 0x10, 0xF0,  0x90, 0x90, 0xF0, 0x10, 0x10,  0xF0, 0x80, 0xF0, 0x10, 0xF0] ++
  [0xF0, 0x80, 0xF0, 0x90, 0xF0,  0xF0, 0x10, 0x20, 0x40, 0x40,  0xF0, 0x90, 0xF0, 0x90, 0xF0,
   0xF0, 0x90, 0xF0, 0x10, 0xF0,  0xF0, 0x90, 0xF0, 0x90, 0x90] ++
  [0xE0, 0x90, 0xE0, 0x90, 0xE0,  0xF0, 0x80, 0x80, 0x80, 0xF0,  0xE0, 0x90, 0x90, 0x90, 0xE0,
   0xF0, 0x80, 0xF0, 0x80, 0xF0,  0xF0, 0x80, 0xF0, 0x80, 0x80]

/-- What an address nothing has written reads as: what RESET leaves there, the font copy at FONT_OFFSET and 0x00
everywhere else (R34; log 4). -/
def unlistedByte (a : Nat) : Byte :=
  if fontOffset ≤ a then fontTable.getD (a - fontOffset) 0x00 else 0x00

end Sys2Proof.Machine
end

