-- ==== Sys2Proof/Machine/State.lean ====
section
/-! DEFINITION. The state of the core as plain data (spec/10_state.md, summary table of section 1), the two reasons a
step could stop, and the state after RESET (R34). -/

namespace Sys2Proof.Machine

/-- The core raises no exception and every instruction word executes to completion (R230 of spec/60_exceptions.md), so
no step of this model ends in a fault and there is no reason to name: the type is empty (safe or unsafe does not
arise). -/
inductive Fault
  deriving DecidableEq, Repr

/-- Why the model could refuse an instruction. -/
inductive Refusal where
  /-- Raised only by an arm of `exec` whose instruction has no meaning yet; safe. Every arm has one, so no step
  answers it. -/
  | notModelled (mnemonic : String)
  deriving DecidableEq, Repr

/-- MEM as data: the cells that differ from what RESET leaves there, by rising address (R30, R50; `Memory.wf` in
Sys2Proof/Machine/Ops.lean says the form). -/
abbrev Memory := List Host.Cell

/-- One row of the frame buffer, 64 pixels, column 0 leftmost (R180). -/
abbrev PixelRow := Vector Bool 64

/-- VRAM: 32 rows of 64 one-bit pixels, row 0 topmost; pixel (column x, row y) is VRAM[64·y + x] (R31, R180). -/
abbrev Vram := Vector PixelRow 32

/-- Every piece of state the spec gives the core (spec/10_state.md section 1), and one field of the model's own. -/
structure State where
  /-- V0 to VF, sixteen 8-bit registers; VF is `v[15]` (R20, R22). -/
  v : Vector Byte 16
  /-- I, the 16-bit index register (R24). -/
  i : Word
  /-- PC, the 16-bit program counter (R23). -/
  pc : Word
  /-- SP, the low byte of the address of the next free stack byte (R25). -/
  sp : Byte
  /-- DT, the delay timer (R26). -/
  dt : Byte
  /-- ST, the sound timer (R26). -/
  st : Byte
  /-- KEY, one flag for each key, true for down (R29). -/
  key : Vector Bool 16
  /-- WAIT: `none` is NONE, `some r` is reg(r) (R29; D17, log 14). -/
  wait : Option Reg
  /-- MEM, 4096 bytes (R30). -/
  mem : Memory
  /-- VRAM, 2048 pixels (R31). -/
  vram : Vram
  /-- THE MODEL'S OWN FIELD, not the spec's: how many random bytes have been drawn, so that each executed Cxkk takes a
  fresh free value (R147; log 2). -/
  draws : Nat
  deriving DecidableEq, Repr

/-- The state right after RESET (R34, R260). The source states PC, the font copy and WAIT; the zeros and SP are the
spec's decisions D11 and D4 (log 3). Memory lists nothing: an unlisted address reads as RESET leaves it (log 4). -/
def State.reset : State where
  v := .replicate 16 0x00
  i := 0x0000
  pc := BitVec.ofNat 16 Config.progBase
  sp := 0xFF
  dt := 0x00
  st := 0x00
  key := .replicate 16 false
  wait := none
  mem := []
  vram := .replicate 32 (.replicate 64 false)
  draws := 0

/-- What a meaning answers. -/
abbrev Answer := Host.Outcome State Fault Refusal

end Sys2Proof.Machine
end

