-- ==== Sys2Proof/Machine/Ops.lean ====
section
/-! DEFINITION. The named operations over registers, memory and the stack (R9 of spec/00_scope.md, spec/20_memory.md).
TAKING AN EXCEPTION AND RETURNING FROM ONE have no operation here, because the core has neither: it raises no
exception, has no interrupt, saves no state and has no trap return (R230, R231, R234, R235 of
spec/60_exceptions.md); 00EE is a subroutine return (R103). -/

namespace Sys2Proof.Machine

/-! ### Memory as a list of cells -/

/-- The byte at an address: the listed one, or what RESET left there. -/
def cellRead : Memory → Nat → Byte
  | [], a => unlistedByte a
  | (b, u) :: rest, a => if a = b then u else cellRead rest a

/-- A cell in front of the rest, left out when it holds what the address reads as unlisted. -/
def consCell (a : Nat) (u : Byte) (rest : Memory) : Memory :=
  if u = unlistedByte a then rest else (a, u) :: rest

/-- Set the byte at an address, keeping the canonical form. -/
def cellWrite : Memory → Nat → Byte → Memory
  | [], a, u => consCell a u []
  | (b, w) :: rest, a, u =>
    if a < b then consCell a u ((b, w) :: rest)
    else if a = b then consCell a u rest
    else (b, w) :: cellWrite rest a u

/-- The canonical form of memory: strictly rising addresses inside the space, and no cell that holds what its address
reads as unlisted. -/
abbrev Memory.wf (m : Memory) : Prop :=
  m.Pairwise (fun c d => c.1 < d.1) ∧ ∀ c ∈ m, c.1 < Config.memSize ∧ c.2 ≠ unlistedByte c.1

/-! ### The registers, one writer each -/

/-- `V[x]` (R9). -/
def getV (s : State) (x : Reg) : Byte := s.v[x.toNat]'x.isLt

/-- `V[x] <- u` (R9): no register is hardwired (R20). -/
def setV (s : State) (x : Reg) (u : Byte) : State := { s with v := s.v.set x.toNat u x.isLt }

/-- `I <- u`. -/
def setI (s : State) (u : Word) : State := { s with i := u }

/-- `PC <- u`; PC is stored unmasked (R23; D7, log 7). -/
def setPc (s : State) (u : Word) : State := { s with pc := u }

/-- `SP <- u`. -/
def setSp (s : State) (u : Byte) : State := { s with sp := u }

/-- `DT <- u`. -/
def setDt (s : State) (u : Byte) : State := { s with dt := u }

/-- `ST <- u`. -/
def setSt (s : State) (u : Byte) : State := { s with st := u }

/-- `KEY[k]`. -/
def getKey (s : State) (k : Nibble) : Bool := s.key[k.toNat]'k.isLt

/-- `KEY[k] <- down`. -/
def setKey (s : State) (k : Nibble) (down : Bool) : State := { s with key := s.key.set k.toNat down k.isLt }

/-- `WAIT <- w`. -/
def setWait (s : State) (w : Option Reg) : State := { s with wait := w }

/-- The whole frame buffer replaced by the result of one of its operations. -/
def setVram (s : State) (g : Vram) : State := { s with vram := g }

/-- `Rnd()`: the next free byte (R147; log 1). -/
def rndByte (s : State) : Byte := Config.rnd s.draws

/-- One more random byte has been drawn, so that the next draw is a fresh one (R147; log 2). -/
def rndDrawn (s : State) : State := { s with draws := s.draws + 1 }

/-! ### MemRead and MemWrite -/

/-- `MemRead(a, 1)`: any non-negative `a`, reduced modulo 4096, never a fault (R52; D6, log 6). -/
def memRead (s : State) (a : Nat) : Byte := cellRead s.mem (a % Config.memSize)

/-- `MemWrite(a, 1, u)`: any non-negative `a`, reduced modulo 4096, no address protected (R53, R58; log 6). -/
def memWrite (s : State) (a : Nat) (u : Byte) : State :=
  { s with mem := cellWrite s.mem (a % Config.memSize) u }

/-! ### The stack -/

/-- STACK_BASE: the stack is the page 0x100 to 0x1FF of memory (R59; D3, log 11). -/
def stackBase : Nat := 0x100

/-- `Push(u)`: write at 0x100 + SP, then decrement SP modulo 256 (R60; D4, D5, log 11). -/
def push (s : State) (u : Byte) : State := setSp (memWrite s (stackBase + s.sp.toNat) u) (s.sp - 1)

/-- `Pop()`: increment SP modulo 256, then read at 0x100 + SP; the byte stays in memory (R61). The state first, the byte
second. -/
def pop (s : State) : State × Byte :=
  let t := setSp s (s.sp + 1)
  (t, memRead t (stackBase + t.sp.toNat))

/-! ### The program counter -/

/-- The implicit advance `PC <- PC + 2`, modulo 65536 (R102; D7, log 7). -/
def advance (s : State) : State := setPc s (s.pc + 2)

/-- A skip: `PC + 4` when its condition holds and `PC + 2` when it does not (R102). -/
def skipIf (s : State) (taken : Bool) : State := setPc s (if taken then s.pc + 4 else s.pc + 2)

/-- The two bytes of the next instruction, at PC and PC + 1, whatever PC's parity (R101, R56; D8, log 8). -/
def fetch (s : State) : Byte × Byte := (memRead s s.pc.toNat, memRead s (s.pc.toNat + 1))

/-- Bytes written to memory from an address upward, the first at `a`: LOAD's copy (R238). -/
def memWriteAll (s : State) (a : Nat) : List Byte → State
  | [] => s
  | u :: rest => memWriteAll (memWrite s a u) (a + 1) rest

end Sys2Proof.Machine
end

