-- ==== Sys2Proof/Machine/Flags.lean ====
section
/-! DEFINITION. The flag computations: what is written to VF (R22 of spec/10_state.md, R143 to R146 of
spec/41_alu.md), and the order of result and flag when both go to a register (R27). -/

namespace Sys2Proof.Machine

/-- A flag as VF holds it: 0x01 or 0x00 (R22). -/
def flagByte (b : Bool) : Byte := if b then 0x01 else 0x00

/-- 8xy4's carry: the unsigned sum exceeds 255 (R143). -/
def carryFlag (a b : Byte) : Bool := a.toNat + b.toNat > 255

/-- The subtractions' flag, a strict comparison of the operands before the write (R144). -/
def greaterFlag (a b : Byte) : Bool := a.toNat > b.toNat

/-- 8xy6's flag, bit 0 of the pre-shift value (R145). -/
def lowBit (a : Byte) : Bool := a.getLsbD 0

/-- 8xyE's flag, bit 7 of the pre-shift value (R145). -/
def highBit (a : Byte) : Bool := a.getLsbD 7

/-- `V[x] <- result` and then `V[15] <- flag`: with x = 15 the flag stays (8xy4, 8xy5, 8xy7; R146, D2, log 9). -/
def resultThenFlag (s : State) (x : Reg) (result : Byte) (flag : Bool) : State :=
  setV (setV s x result) regF (flagByte flag)

/-- `V[15] <- flag` and then `V[x] <- result`: with x = 15 the result stays (8xy6, 8xyE; R146, D2, log 9). -/
def flagThenResult (s : State) (x : Reg) (flag : Bool) (result : Byte) : State :=
  setV (setV s regF (flagByte flag)) x result

end Sys2Proof.Machine
end

