-- ==== Sys2Proof/Machine/Alu.lean ====
section
/-! DEFINITION. Register file and ALU (spec/41_alu.md): 6xkk, 7xkk, 8xy0 to 8xy7, 8xyE, Cxkk. Every operand is read from
the state before the instruction (R27). -/

namespace Sys2Proof.Machine

/-- 6xkk: `Vx <- kk` (R131). -/
def execLdImm (x : Reg) (kk : Byte) (s : State) : Answer := .next (advance (setV s x kk))

/-- 7xkk: `Vx <- (Vx + kk) mod 256`, VF unaffected (R132). -/
def execAddImm (x : Reg) (kk : Byte) (s : State) : Answer := .next (advance (setV s x (getV s x + kk)))

/-- 8xy0: `Vx <- Vy` (R133). -/
def execLdReg (x y : Reg) (s : State) : Answer := .next (advance (setV s x (getV s y)))

/-- 8xy1: `Vx <- Vx | Vy`, VF unaffected (R134; D1, log 10). -/
def execOrReg (x y : Reg) (s : State) : Answer := .next (advance (setV s x (getV s x ||| getV s y)))

/-- 8xy2: `Vx <- Vx & Vy`, VF unaffected (R135; D1, log 10). -/
def execAndReg (x y : Reg) (s : State) : Answer := .next (advance (setV s x (getV s x &&& getV s y)))

/-- 8xy3: `Vx <- Vx ^ Vy`, VF unaffected (R136; D1, log 10). -/
def execXorReg (x y : Reg) (s : State) : Answer := .next (advance (setV s x (getV s x ^^^ getV s y)))

/-- 8xy4: the sum modulo 256, then VF = carry (R137). -/
def execAddReg (x y : Reg) (s : State) : Answer :=
  .next (advance (resultThenFlag s x (getV s x + getV s y) (carryFlag (getV s x) (getV s y))))

/-- 8xy5: `Vx - Vy` modulo 256, then VF = 1 when Vx > Vy before (R138). -/
def execSub (x y : Reg) (s : State) : Answer :=
  .next (advance (resultThenFlag s x (getV s x - getV s y) (greaterFlag (getV s x) (getV s y))))

/-- 8xy6: VF = bit 0, then `Vx >> 1`; Vy neither read nor written (R139, R145). -/
def execShr (x _y : Reg) (s : State) : Answer :=
  .next (advance (flagThenResult s x (lowBit (getV s x)) (getV s x >>> 1)))

/-- 8xy7: `Vy - Vx` modulo 256, then VF = 1 when Vy > Vx before (R140). -/
def execSubn (x y : Reg) (s : State) : Answer :=
  .next (advance (resultThenFlag s x (getV s y - getV s x) (greaterFlag (getV s y) (getV s x))))

/-- 8xyE: VF = bit 7, then `Vx << 1` modulo 256; Vy neither read nor written (R141, R145). -/
def execShl (x _y : Reg) (s : State) : Answer :=
  .next (advance (flagThenResult s x (highBit (getV s x)) (getV s x <<< 1)))

/-- Cxkk: `Vx <- Rnd() & kk`, one fresh free byte (R142, R147; log 1, log 2). -/
def execRnd (x : Reg) (kk : Byte) (s : State) : Answer :=
  .next (advance (rndDrawn (setV s x (rndByte s &&& kk))))

end Sys2Proof.Machine
end

