-- ==== Sys2Proof/Machine/Operands.lean ====
section
/-! DEFINITION. The operand forms (R82 of spec/30_encoding.md, R166 of spec/42_index_and_memory.md, R206 of
spec/44_keys_and_timers.md): no immediate is sign-extended, scaled or shifted. -/

namespace Sys2Proof.Machine

/-- `zext_16(nnn)` (R82). -/
def addrOperand (nnn : Addr) : Word := nnn.setWidth 16

/-- `zext_16` of a byte, the operand of Fx1E and of Bnnn (R161, R110). -/
def wideByte (u : Byte) : Word := u.setWidth 16

/-- `I + offset`, the sum taken on the full 16-bit I; MemRead and MemWrite reduce it modulo 4096 (R166). -/
def indexAddr (s : State) (offset : Nat) : Nat := s.i.toNat + offset

/-- `Vx & 0x0F`: the key that Ex9E and ExA1 test (R206; D10, log 12). -/
def keySelect (u : Byte) : Nibble := u.setWidth 4

/-- `FONT_OFFSET + 5·(Vx & 0x0F)` (R162). -/
def glyphAddr (u : Byte) : Word := BitVec.ofNat 16 (fontOffset + 5 * (u.toNat % 16))

/-- `vx div 100` (R163). -/
def hundreds (u : Byte) : Byte := BitVec.ofNat 8 (u.toNat / 100)

/-- `(vx div 10) mod 10` (R163). -/
def tens (u : Byte) : Byte := BitVec.ofNat 8 (u.toNat / 10 % 10)

/-- `vx mod 10` (R163). -/
def ones (u : Byte) : Byte := BitVec.ofNat 8 (u.toNat % 10)

/-- `zext_8(k)`: a key number as a register value (R212). -/
def keyByte (k : Nibble) : Byte := k.setWidth 8

/-- The frame-buffer row `(vy + r) mod 32` of sprite row `r` (R185). -/
def spriteRow (vy : Byte) (r : Nat) : Fin 32 := Fin.ofNat 32 (vy.toNat + r)

/-- The first `count` registers stored from I upward, ascending: V[0] to V[count - 1] (R164). -/
def storeRegs (s : State) : Nat → State
  | 0 => s
  | k + 1 => memWrite (storeRegs s k) (indexAddr s k) (getV s (BitVec.ofNat 4 k))

/-- The first `count` registers loaded from I upward, ascending (R165). -/
def loadRegs (s : State) : Nat → State
  | 0 => s
  | k + 1 => setV (loadRegs s k) (BitVec.ofNat 4 k) (memRead s (indexAddr s k))

end Sys2Proof.Machine
end

