-- ==== Sys2Proof/Machine/Control.lean ====
section
/-! DEFINITION. Control transfer (spec/40_step_and_control_flow.md): 00EE, 1nnn, 2nnn, 3xkk, 4xkk, 5xy0, 9xy0, Bnnn,
and the no-op of a word that selects no row. -/

namespace Sys2Proof.Machine

/-- 00EE: pop the high byte, pop the low byte, jump to the pair, no implicit advance (R103). -/
def execRet (s : State) : Answer :=
  let high := pop s
  let low := pop high.1
  .next (setPc low.1 (high.2 ++ low.2))

/-- 1nnn: `PC <- nnn`, no implicit advance (R104). -/
def execJp (nnn : Addr) (s : State) : Answer := .next (setPc s (addrOperand nnn))

/-- 2nnn: push PC + 2, low byte first, then `PC <- nnn` (R105, R63). -/
def execCall (nnn : Addr) (s : State) : Answer :=
  let ra := s.pc + 2
  .next (setPc (push (push s (ra.extractLsb' 0 8)) (ra.extractLsb' 8 8)) (addrOperand nnn))

/-- 3xkk: skip if Vx = kk (R106). -/
def execSeImm (x : Reg) (kk : Byte) (s : State) : Answer := .next (skipIf s (getV s x == kk))

/-- 4xkk: skip if Vx ≠ kk (R107). -/
def execSneImm (x : Reg) (kk : Byte) (s : State) : Answer := .next (skipIf s (getV s x != kk))

/-- 5xy0: skip if Vx = Vy (R108). -/
def execSeReg (x y : Reg) (s : State) : Answer := .next (skipIf s (getV s x == getV s y))

/-- 9xy0: skip if Vx ≠ Vy (R109). -/
def execSneReg (x y : Reg) (s : State) : Answer := .next (skipIf s (getV s x != getV s y))

/-- Bnnn: `PC <- nnn + V0`, stored unmasked, no implicit advance (R110). -/
def execJpV0 (nnn : Addr) (s : State) : Answer := .next (setPc s (addrOperand nnn + wideByte (getV s 0)))

/-- A word that selects no row: `PC <- PC + 2` and nothing else, nothing recorded (R111, R87; D20, D21, log 15). -/
def execUnmatched (s : State) : Answer := .next (advance s)

end Sys2Proof.Machine
end

