-- ==== Sys2Proof/Machine/FrameBuffer.lean ====
section
/-! DEFINITION. The Frame Buffer component (spec/43_display.md section 1): pixels, Clear, DrawByte with its collision
signal, Snapshot, and the rows of one sprite. -/

namespace Sys2Proof.Machine

/-- Pixel (column, row), VRAM[64·row + column]; true is lit (R180). -/
def pixel (g : Vram) (row : Fin 32) (col : Fin 64) : Bool := g[row][col]

/-- One pixel replaced. -/
def setPixel (g : Vram) (row : Fin 32) (col : Fin 64) (lit : Bool) : Vram := g.set row (g[row].set col lit)

/-- `Clear()`: every pixel 0, no collision signal (R181). -/
def clearVram : Vram := .replicate 32 (.replicate 64 false)

/-- `Snapshot()`: the 2048 pixel values in the index order of R180, a copy (R183). -/
def snapshotOf (g : Vram) : List Bool := g.toList.flatMap Vector.toList

/-- The column of bit `b` of a byte drawn at x: `(x + b) mod 64`, the horizontal wrap (R182). -/
def drawCol (x : Byte) (b : Nat) : Fin 64 := Fin.ofNat 64 (x.toNat + b)

/-- One bit of DrawByte: bit `b`, counted from the most significant, is XORed into its pixel, and the collision signal
is raised when the pixel was lit and the bit is 1 (R182). -/
def drawBit (x : Byte) (row : Fin 32) (d : Byte) (gc : Vram × Bool) (b : Nat) : Vram × Bool :=
  let bit := d.getLsbD (7 - b)
  let old := pixel gc.1 row (drawCol x b)
  (setPixel gc.1 row (drawCol x b) (old ^^ bit), gc.2 || (old && bit))

/-- `DrawByte(x, y, d)`: one row of eight pixels, most significant bit first; the buffer after it and the collision
signal (R182). A row outside 0..31 has no meaning and the type has none (D28, log 20). -/
def drawByte (x : Byte) (row : Fin 32) (d : Byte) (g : Vram) : Vram × Bool :=
  (List.range 8).foldl (drawBit x row d) (g, false)

/-- The first `k` rows of the sprite of Dxyn with coordinates `vx`, `vy`: the buffer after them and the collisions so
far (R185). Row r's byte is MemRead(I + r) and its frame row (vy + r) mod 32. -/
def drawRows (s : State) (vx vy : Byte) : Nat → Vram × Bool
  | 0 => (s.vram, false)
  | r + 1 =>
    let before := drawRows s vx vy r
    let drawn := drawByte vx (spriteRow vy r) (memRead s (indexAddr s r)) before.1
    (drawn.1, before.2 || drawn.2)

end Sys2Proof.Machine
end

