-- ==== Sys2Proof/Machine/Display.lean ====
section
/-! DEFINITION. The display instructions (spec/43_display.md section 2): 00E0 and Dxyn. -/

namespace Sys2Proof.Machine

/-- 00E0: every pixel 0, no register written (R184). -/
def execCls (s : State) : Answer := .next (advance (setVram s clearVram))

/-- Dxyn: n rows drawn from MEM[I..], then VF = the collision flag, written once, last (R185). The coordinates are read
before VF is written, so x = 15 or y = 15 uses the old VF (R27). -/
def execDrw (x y : Reg) (n : Nibble) (s : State) : Answer :=
  let drawn := drawRows s (getV s x) (getV s y) n.toNat
  .next (advance (setV (setVram s drawn.1) regF (flagByte drawn.2)))

end Sys2Proof.Machine
end

