-- ==== Sys2Proof/Machine/Index.lean ====
section
/-! DEFINITION. Index register, loads and stores (spec/42_index_and_memory.md): Annn, Fx1E, Fx29, Fx33, Fx55, Fx65. No
access changes I (R28, R166; D1, log 10). -/

namespace Sys2Proof.Machine

/-- Annn: `I <- zext_16(nnn)` (R160). -/
def execLdI (nnn : Addr) (s : State) : Answer := .next (advance (setI s (addrOperand nnn)))

/-- Fx1E: `I <- (I + Vx) mod 65536`, no flag (R161; D9, log 7). -/
def execAddI (x : Reg) (s : State) : Answer := .next (advance (setI s (s.i + wideByte (getV s x))))

/-- Fx29: `I <- FONT_OFFSET + 5·(Vx & 0x0F)`; reads no memory (R162). -/
def execLdF (x : Reg) (s : State) : Answer := .next (advance (setI s (glyphAddr (getV s x))))

/-- Fx33: hundreds, tens and ones of Vx to I, I + 1, I + 2, in that order (R163). -/
def execLdB (x : Reg) (s : State) : Answer :=
  let u := getV s x
  let a := memWrite s (indexAddr s 0) (hundreds u)
  let b := memWrite a (indexAddr s 1) (tens u)
  .next (advance (memWrite b (indexAddr s 2) (ones u)))

/-- Fx55: V0 to Vx, both inclusive, to memory from I upward (R164). -/
def execLdMemVx (x : Reg) (s : State) : Answer := .next (advance (storeRegs s (x.toNat + 1)))

/-- Fx65: V0 to Vx, both inclusive, from memory from I upward (R165). -/
def execLdVxMem (x : Reg) (s : State) : Answer := .next (advance (loadRegs s (x.toNat + 1)))

end Sys2Proof.Machine
end

