-- ==== Sys2Proof/Machine/Keypad.lean ====
section
/-! DEFINITION. The instructions that read the keys or touch the timers (spec/44_keys_and_timers.md): Ex9E, ExA1, Fx07,
Fx0A, Fx15, Fx18. -/

namespace Sys2Proof.Machine

/-- Ex9E: skip if the key selected by Vx is down (R200, R206). -/
def execSkp (x : Reg) (s : State) : Answer := .next (skipIf s (getKey s (keySelect (getV s x))))

/-- ExA1: skip if the key selected by Vx is up (R201, R206). -/
def execSknp (x : Reg) (s : State) : Answer := .next (skipIf s (!getKey s (keySelect (getV s x))))

/-- Fx07: `Vx <- DT` (R202). -/
def execLdVxDt (x : Reg) (s : State) : Answer := .next (advance (setV s x s.dt))

/-- Fx0A: `WAIT <- reg(x)` and the implicit advance; Vx is written later, by the KEY event that ends the wait (R203;
D15, log 13). -/
def execLdVxK (x : Reg) (s : State) : Answer := .next (advance (setWait s (some x)))

/-- Fx15: `DT <- Vx` (R204). -/
def execLdDtVx (x : Reg) (s : State) : Answer := .next (advance (setDt s (getV s x)))

/-- Fx18: `ST <- Vx` (R205). -/
def execLdStVx (x : Reg) (s : State) : Answer := .next (advance (setSt s (getV s x)))

end Sys2Proof.Machine
end

