-- ==== Sys2Proof/Machine/Cycle.lean ====
section
/-! DEFINITION. The cycle of one STEP event (R100 to R102 of spec/40_step_and_control_flow.md): gate, fetch, decode,
execute. -/

namespace Sys2Proof.Machine

/-- What the bytes at PC decode to (R101, R83). -/
def decodeNext (s : State) : Decoded :=
  let bytes := fetch s
  decode bytes.1 bytes.2

/-- Execute what was decoded: an instruction by its rule, a word of no row as a no-op (R102, R111). -/
def execDecoded (d : Decoded) (s : State) : Answer :=
  match d with
  | .instr i => exec i s
  | .unmatched _ => execUnmatched s

/-- The STEP event: while a key-wait is pending nothing happens, not even a fetch (R100; D15, log 13); otherwise one
instruction is fetched, decoded and executed. -/
def cycle (s : State) : Answer :=
  match s.wait with
  | some _ => .next s
  | none => execDecoded (decodeNext s) s

/-- A word stored where the next fetch reads it, with no key-wait pending: for the host's questions. -/
def placeWord (s : State) (ir : Word) : State :=
  let bytes := wordBytes ir
  setWait (memWriteAll s s.pc.toNat [bytes.1, bytes.2]) none

end Sys2Proof.Machine
end

