-- ==== Sys2Proof/Machine/Step.lean ====
section
/-! DEFINITION. One step of the machine is one STEP event (R239 of spec/60_exceptions.md). -/

namespace Sys2Proof.Machine

/-- "advances one instruction; no arguments, no return value (side effects only)" (R239). -/
def step (s : State) : Host.Outcome State Fault Refusal := cycle s

/-- The state with the instruction of these bits (numbered as spec/opcode_table.json numbers them) at PC and PC + 1, and
no key-wait pending, so that the next step fetches and runs it (log 19). -/
def State.withFetchWord (s : State) (nbits w : Nat) : State := placeWord s (tableWord nbits w)

end Sys2Proof.Machine
end

