-- ==== Sys2Proof/Machine/Events.lean ====
section
/-! DEFINITION. The interface events of the core (R236 of spec/60_exceptions.md): RESET, LOAD, STEP, TICK, KEY,
SNAPSHOT, the sound-active query and the debug reads. Events are atomic and taken in any order (R245): a list of
events is one such order. -/

namespace Sys2Proof.Machine

/-- RESET: every piece of state at its reset value (R237, R34; D27, log 16). The model's own count of draws goes on, so
that no random byte is drawn twice (log 2). -/
def resetEvent (s : State) : State := { State.reset with draws := s.draws }

/-- LOAD: the bytes copied to 0x200 upward when they fit, nothing changed when they do not (R238; D22, log 18). -/
def loadEvent (bytes : List Byte) (s : State) : State :=
  if loadFits bytes then memWriteAll s Config.progBase bytes else s

/-- One timer counted down, never below zero (R210). -/
def countDown (u : Byte) : Byte := if u.toNat > 0 then u - 1 else u

/-- TICK: each of DT and ST decremented if it is not zero, in every state of the core (R210, R214; D25, log 17). -/
def tickEvent (s : State) : State := setSt (setDt s (countDown s.dt)) (countDown s.st)

/-- KEY(k, down): the flag is set, and a key-down ends a pending key-wait by writing the key's number to the waiting
register (R212; D16, log 14). -/
def keyEvent (k : Nibble) (down : Bool) (s : State) : State :=
  let t := setKey s k down
  match down, s.wait with
  | true, some r => setWait (setV t r (keyByte k)) none
  | _, _ => t

/-- The sound-active output: ST ≠ 0 (R211). -/
def soundActive (s : State) : Bool := s.st != 0

/-- The registers the debugger can read (R243). -/
inductive DebugReg where
  | v (x : Reg)
  | pc
  | sp
  | i
  deriving DecidableEq, Repr

/-- The events of the core's interface (R236). -/
inductive Event where
  | reset
  | load (bytes : List Byte)
  | step
  | tick
  | key (k : Nibble) (down : Bool)
  | snapshot
  | soundQuery
  | debugRead (r : DebugReg)
  deriving DecidableEq, Repr

/-- What an event answers its issuer (the result column of R236). -/
inductive Output where
  /-- No result: RESET, STEP, TICK, KEY. -/
  | nothing
  /-- LOAD's "ok". -/
  | loaded
  /-- LOAD's OutOfBounds: the one error the core reports (R251). -/
  | outOfBounds
  /-- SNAPSHOT's 2048 pixel values (R183). -/
  | pixels (grid : List Bool)
  /-- The sound-active bit (R211). -/
  | bit (b : Bool)
  /-- A debug read of an 8-bit register (R243). -/
  | byte (u : Byte)
  /-- A debug read of a 16-bit register (R243). -/
  | word (u : Word)
  deriving DecidableEq, Repr

/-- A debug read: the register's current value, nothing changed (R243). -/
def debugValue (r : DebugReg) (s : State) : Output :=
  match r with
  | .v x => .byte (getV s x)
  | .pc => .word s.pc
  | .sp => .byte s.sp
  | .i => .word s.i

/-- What an event answers in a state (R236). -/
def eventOutput (e : Event) (s : State) : Output :=
  match e with
  | .reset | .step | .tick | .key _ _ => .nothing
  | .load bytes => if loadFits bytes then .loaded else .outOfBounds
  | .snapshot => .pixels (snapshotOf s.vram)
  | .soundQuery => .bit (soundActive s)
  | .debugRead r => debugValue r s

/-- The state after one event (R236 to R244). -/
def handle (e : Event) (s : State) : Answer :=
  match e with
  | .reset => .next (resetEvent s)
  | .load bytes => .next (loadEvent bytes s)
  | .step => step s
  | .tick => .next (tickEvent s)
  | .key k down => .next (keyEvent k down s)
  | .snapshot | .soundQuery | .debugRead _ => .next s

/-- The state after a sequence of events, in the order the environment issued them (R245). -/
def runEvents : List Event → State → Answer
  | [], s => .next s
  | e :: rest, s =>
    match handle e s with
    | .next t => runEvents rest t
    | .fault r => .fault r
    | .refused r => .refused r

/-- The frame buffers that a SNAPSHOT may find at the points of one STEP where it may be ordered: before it, after each
row of a Dxyn, and after it (R186, R245). 00E0 has no point in between (R181; D19, log 17). -/
def framesDuringStep (s : State) : List Vram :=
  match s.wait, decodeNext s with
  | none, .instr (.drw x y n) =>
    (List.range (n.toNat + 1)).map fun k => (drawRows s (getV s x) (getV s y) k).1
  | _, _ =>
    match step s with
    | .next t => [s.vram, t.vram]
    | _ => [s.vram]

end Sys2Proof.Machine
end

