-- ==== Sys2Proof/Safety.lean ====
section
/-! DEFINITION. The terms claims are stated in: what a safe run is, what a step keeps, where PC goes, and the reading of
a stack. -/

namespace Sys2Proof

open Sys2Proof.Machine

/-- A run of `k` STEP events from `s` that never stops (R230 of spec/60_exceptions.md says every run is one). -/
def safeFor (k : Nat) (s : State) : Prop := ∃ t, core.run k s = .next t

/-- The conventional end of a program: PC at an address that holds a jump to itself (R270 of
spec/70_reset_and_hazards.md; D29, log 22). -/
def atSelfJump (s : State) : Prop :=
  s.wait = none ∧ ∃ nnn : Addr, decodeNext s = .instr (.jp nnn) ∧ s.pc = addrOperand nnn

/-- The state outside V, PC and MEM, one name for each piece (spec/10_state.md section 1; `draws` is the model's own). -/
inductive Part where
  | i | sp | dt | st | key | wait | vram | draws
  deriving DecidableEq, Repr

/-- The piece holds the same in both states. -/
def Part.same (p : Part) (s t : State) : Prop :=
  match p with
  | .i => t.i = s.i
  | .sp => t.sp = s.sp
  | .dt => t.dt = s.dt
  | .st => t.st = s.st
  | .key => t.key = s.key
  | .wait => t.wait = s.wait
  | .vram => t.vram = s.vram
  | .draws => t.draws = s.draws

/-- Every piece of state outside V, PC and MEM is the same but those listed. -/
def keepsParts (changed : List Part) (s t : State) : Prop := ∀ p, p ∉ changed → p.same s t

/-- Every register is the same but those named. -/
def keepsRegs (changed : Reg → Prop) (s t : State) : Prop := ∀ r, ¬ changed r → getV t r = getV s r

/-- Every byte of memory reads the same but those at the stored addresses (0 to 4095). -/
def keepsMem (stored : Nat → Prop) (s t : State) : Prop :=
  ∀ a, ¬ stored (a % Config.memSize) → memRead t a = memRead s a

/-- The frame of an instruction (R28 of spec/10_state.md): what it leaves as it was; PC is not spoken of. -/
def frame (parts : List Part) (regs : Reg → Prop) (stored : Nat → Prop) (s t : State) : Prop :=
  keepsParts parts s t ∧ keepsRegs regs s t ∧ keepsMem stored s t

/-- No register, or no address. -/
def nowhere {α : Type} (_ : α) : Prop := False

/-- PC after an executed instruction, the table of R113 (spec/40_step_and_control_flow.md), sums modulo 65536. -/
def pcAfter (i : Instr) (s : State) : Word :=
  match i with
  | .ret => memRead s (0x100 + (s.sp + 1).toNat) ++ memRead s (0x100 + (s.sp + 2).toNat)
  | .jp nnn => nnn.setWidth 16
  | .call nnn => nnn.setWidth 16
  | .jpV0 nnn => nnn.setWidth 16 + (getV s 0).setWidth 16
  | .seImm x kk => if getV s x = kk then s.pc + 4 else s.pc + 2
  | .sneImm x kk => if getV s x ≠ kk then s.pc + 4 else s.pc + 2
  | .seReg x y => if getV s x = getV s y then s.pc + 4 else s.pc + 2
  | .sneReg x y => if getV s x ≠ getV s y then s.pc + 4 else s.pc + 2
  | .skp x => if getKey s (BitVec.ofNat 4 ((getV s x).toNat % 16)) = true then s.pc + 4 else s.pc + 2
  | .sknp x => if getKey s (BitVec.ofNat 4 ((getV s x).toNat % 16)) = false then s.pc + 4 else s.pc + 2
  | .cls | .ldImm .. | .addImm .. | .ldReg .. | .orReg .. | .andReg .. | .xorReg .. | .addReg .. | .sub .. | .shr ..
  | .subn .. | .shl .. | .ldI .. | .rnd .. | .drw .. | .ldVxDt .. | .ldVxK .. | .ldDtVx .. | .ldStVx .. | .addI ..
  | .ldF .. | .ldB .. | .ldMemVx .. | .ldVxMem .. => s.pc + 2

/-- WAIT after one event, the state machine of R213 (spec/44_keys_and_timers.md). -/
def waitAfter (e : Event) (s : State) : Option Reg :=
  match e with
  | .reset => none
  | .key _ true => none
  | .key _ false => s.wait
  | .step =>
    match s.wait, decodeNext s with
    | some r, _ => some r
    | none, .instr (.ldVxK x) => some x
    | none, _ => none
  | .load _ | .tick | .snapshot | .soundQuery | .debugRead _ => s.wait

/-- Bytes pushed one after another, the first of the list first. -/
def pushAll (s : State) : List Byte → State
  | [] => s
  | u :: rest => pushAll (push s u) rest

/-- `count` bytes popped one after another, in the order they come: the state after them and the bytes. -/
def popAll (s : State) : Nat → State × List Byte
  | 0 => (s, [])
  | count + 1 =>
    let top := pop s
    let rest := popAll top.1 count
    (rest.1, top.2 :: rest.2)

/-- The distance of a column to the right of the start column `x mod 64`, around the screen's edge (R182 of
spec/43_display.md): the bit of the sprite byte that falls on it, when it is below 8. -/
def bitAt (x : Byte) (col : Fin 64) : Nat := (col.val + 256 - x.toNat) % 64

/-- The sprite row that Dxyn draws on a frame row, around the bottom edge (R185). -/
def spriteRowAt (vy : Byte) (row : Fin 32) : Nat := (row.val + 256 - vy.toNat) % 32

/-- Does a byte drawn at column `x` have a 1 on this column (R182)? -/
def byteCovers (x : Byte) (d : Byte) (col : Fin 64) : Bool := bitAt x col < 8 && d.getLsbD (7 - bitAt x col)

/-- Does the n-row sprite at MEM[I..], drawn at (vx, vy), have a 1 on this pixel (R185)? -/
def spriteCovers (s : State) (vx vy : Byte) (n : Nat) (row : Fin 32) (col : Fin 64) : Bool :=
  spriteRowAt vy row < n && byteCovers vx (memRead s (s.i.toNat + spriteRowAt vy row)) col

end Sys2Proof
end

