-- ==== Sys2Proof/Certificates/Slice0/Obligations.lean ====
section
/-! DEFINITION. The statements for the provers, one def each, from the numbered rules of spec/. A docstring says which rule
a statement formalises, and which of its clauses rest on one of the spec's own decisions D<n>
(spec/92_eei_decisions.md) rather than on the source. -/

open Sys2Proof Sys2Proof.Machine

/-! ### Encoding and decoding (spec/30_encoding.md) -/

/-- Decode and encode agree: every instruction, with every value of every operand, is what its encoding decodes to, as a
word and as two bytes of memory (R81 to R84, R54). -/
def Obligations.EncodedInstructionDecodesBack : Prop :=
  ∀ i : Instr, decodeWord (encode i) = .instr i ∧ decode (encodeBytes i).1 (encodeBytes i).2 = .instr i

/-- The other direction: a word that decodes to an instruction is that instruction's encoding, so no bit of it is
dropped, and no two words decode to the same `Instr` (R81 to R84). For 00E0 and 00EE it rests on their match on all 16
bits, the spec's decision D20 (R85, log 15). -/
def Obligations.DecodedWordIsItsEncoding : Prop :=
  ∀ (ir : Word) (i : Instr), decodeWord ir = .instr i → encode i = ir

/-- R83: the masks by format, no two rows overlap, a word takes the row whose (ir & mask) = match, and a word of no row is
unmatched. That the masks of 00E0 and 00EE are 0xFFFF is the spec's decision D20 (R85, log 15). -/
def Obligations.DecodingSelectsTheMatchingRow : Prop :=
  opcodeTable.map (fun r => (r.pattern, r.mask)) =
    [(0x00E0, 0xFFFF), (0x00EE, 0xFFFF), (0x1000, 0xF000), (0x2000, 0xF000), (0x3000, 0xF000), (0x4000, 0xF000),
     (0x5000, 0xF00F), (0x6000, 0xF000), (0x7000, 0xF000), (0x8000, 0xF00F), (0x8001, 0xF00F), (0x8002, 0xF00F),
     (0x8003, 0xF00F), (0x8004, 0xF00F), (0x8005, 0xF00F), (0x8006, 0xF00F), (0x8007, 0xF00F), (0x800E, 0xF00F),
     (0x9000, 0xF00F), (0xA000, 0xF000), (0xB000, 0xF000), (0xC000, 0xF000), (0xD000, 0xF000), (0xE09E, 0xF0FF),
     (0xE0A1, 0xF0FF), (0xF007, 0xF0FF), (0xF00A, 0xF0FF), (0xF015, 0xF0FF), (0xF018, 0xF0FF), (0xF01E, 0xF0FF),
     (0xF029, 0xF0FF), (0xF033, 0xF0FF), (0xF055, 0xF0FF), (0xF065, 0xF0FF)] ∧
  opcodeTable.Pairwise (fun r q => ∀ ir : Word, ¬ (ir &&& r.mask = r.pattern ∧ ir &&& q.mask = q.pattern)) ∧
  ∀ ir : Word,
    (∀ r ∈ opcodeTable, ir &&& r.mask = r.pattern → decodeWord ir = .instr (r.build ir)) ∧
    ((∀ r ∈ opcodeTable, ir &&& r.mask ≠ r.pattern) → decodeWord ir = .unmatched ir)

/-- The table of R88: the words that select no row, family by family. That 00E0 and 00EE are matched on all 16 bits and
that 0nnn is no call are the spec's decisions D20 and D21 (log 15). -/
def Obligations.UnmatchedWordsAreExactlyThese : Prop :=
  ∀ ir : Word, decodeWord ir = .unmatched ir ↔
    let family := ir.toNat / 4096
    let low := ir.toNat % 16
    let byte := ir.toNat % 256
    (family = 0x0 ∧ ir ≠ 0x00E0 ∧ ir ≠ 0x00EE) ∨
    (family = 0x5 ∧ low ≠ 0) ∨
    (family = 0x8 ∧ low ∈ [0x8, 0x9, 0xA, 0xB, 0xC, 0xD, 0xF]) ∨
    (family = 0x9 ∧ low ≠ 0) ∨
    (family = 0xE ∧ byte ∉ [0x9E, 0xA1]) ∨
    (family = 0xF ∧ byte ∉ [0x07, 0x0A, 0x15, 0x18, 0x1E, 0x29, 0x33, 0x55, 0x65])

/-- Words of the spec's own decode table (95_test_vectors.md 2.1), written out from R81 and R84. That 01E0 is unmatched is
the spec's decision D20 (R85, log 15). -/
def Obligations.WordsOfTheSpecDecode : Prop :=
  decodeWord 0x00E0 = .instr .cls ∧ decodeWord 0x00EE = .instr .ret ∧ decodeWord 0x01E0 = .unmatched 0x01E0 ∧
  decodeWord 0x10E0 = .instr (.jp 0x0E0) ∧ decodeWord 0x2FFF = .instr (.call 0xFFF) ∧
  decodeWord 0x3A7F = .instr (.seImm 0xA 0x7F) ∧ decodeWord 0x5AB0 = .instr (.seReg 0xA 0xB) ∧
  decodeWord 0x8AB4 = .instr (.addReg 0xA 0xB) ∧ decodeWord 0x8ABE = .instr (.shl 0xA 0xB) ∧
  decodeWord 0x9ABF = .unmatched 0x9ABF ∧ decodeWord 0xD12F = .instr (.drw 0x1 0x2 0xF) ∧
  decodeWord 0xE19E = .instr (.skp 0x1) ∧ decodeWord 0xF365 = .instr (.ldVxMem 0x3) ∧
  decodeWord 0xF375 = .unmatched 0xF375

/-! ### The step (spec/40_step_and_control_flow.md section 1) -/

/-- R54: the step takes its instruction word from MEM[PC] and MEM[PC + 1], the byte at the lower address being ir[15:8]
and the other ir[7:0]. -/
def Obligations.FetchIsBigEndian : Prop :=
  ∀ s : State, s.wait = none → ∃ ir : Word,
    ir.extractLsb' 8 8 = memRead s s.pc.toNat ∧ ir.extractLsb' 0 8 = memRead s (s.pc.toNat + 1) ∧
    step s = execDecoded (decodeWord ir) s

/-- A step runs the decoded instruction: with no key-wait pending, when the two bytes at PC decode to an instruction, the
step is exec of it at that state, with nothing around it (R101, R102). -/
def Obligations.StepRunsTheDecodedInstruction : Prop :=
  ∀ (s : State) (i : Instr), s.wait = none →
    decode (memRead s s.pc.toNat) (memRead s (s.pc.toNat + 1)) = .instr i → step s = exec i s

/-- R111: a word that selects no row advances PC by 2 and changes nothing else. The sum modulo 65536 is the spec's
decision D7 (log 7). -/
def Obligations.UnmatchedWordOnlyAdvancesPc : Prop :=
  ∀ (s : State) (w : Word), s.wait = none →
    decode (memRead s s.pc.toNat) (memRead s (s.pc.toNat + 1)) = .unmatched w →
    step s = .next { s with pc := s.pc + 2 }

/-- R100: while a key-wait is pending a STEP changes nothing at all (the spec's decision D15, log 13). -/
def Obligations.StepWhileWaitingChangesNothing : Prop :=
  ∀ (s : State) (r : Reg), s.wait = some r → step s = .next s

/-- R230: the core raises no exception; every instruction in every state, and every STEP in every state, ends in a next
state. -/
def Obligations.EveryInstructionExecutesToCompletion : Prop :=
  (∀ (i : Instr) (s : State), ∃ t, exec i s = .next t) ∧ ∀ s : State, ∃ t, step s = .next t

/-- R113: PC after every instruction. That sums are modulo 65536 and stored unmasked is the spec's decision D7 (log 7), the
key selected by Vx its decision D10 (log 12), where RET reads its address D3 and D4 (log 11), that Fx0A takes its PC + 2 in
the step that executes it D15 (log 13). -/
def Obligations.PcAfterEveryInstruction : Prop :=
  ∀ (i : Instr) (s : State), ∃ t, exec i s = .next t ∧ t.pc = pcAfter i s

/-- R270: a jump to its own address leaves the whole state unchanged; taking this for the end of a program is the spec's
suggestion D29 (log 22). -/
def Obligations.SelfJumpIsAFixedPoint : Prop := ∀ s : State, atSelfJump s → step s = .next s

/-! ### Invariants -/

/-- The canonical form of memory is kept by every step, from every state that has it (log 4: the form is the model's). -/
def Obligations.StepKeepsMemoryCanonical : Prop :=
  ∀ s t : State, s.mem.wf → step s = .next t → t.mem.wf

/-- The canonical form of memory is kept by every sequence of interface events, in any order (R245). -/
def Obligations.EventsKeepMemoryCanonical : Prop :=
  ∀ (es : List Event) (s t : State), s.mem.wf → runEvents es s = .next t → t.mem.wf

/-- Memory has the canonical form after RESET. -/
def Obligations.ResetMemoryIsCanonical : Prop := State.reset.mem.wf

/-- No sequence of events and no number of steps ever stops the core (R230, R231). -/
def Obligations.EveryRunGoesOn : Prop :=
  (∀ (es : List Event) (s : State), ∃ t, runEvents es s = .next t) ∧ ∀ (k : Nat) (s : State), safeFor k s

/-! ### Reset (R34, R260) -/

/-- What RESET leaves: PC, the font copy, its glyph 0 and the absence of a key-wait are the source's; the zeros are the
spec's decision D11, SP its decision D4 (log 3), the font's address its D12, the bytes of glyphs 1 to F, written out here
from R33's table, its D13 and from general knowledge (log 5). -/
def Obligations.ResetLeavesTheseValues : Prop :=
  let s := State.reset
  s.pc = 0x0200 ∧ s.wait = none ∧ (∀ k < 80, memRead s (fontOffset + k) = fontTable.getD k 0) ∧
  fontOffset = 0x000 ∧ (List.range 5).map (fun k => memRead s k) = [0xF0, 0x90, 0x90, 0x90, 0xF0] ∧
  (List.range 75).map (fun k => memRead s (5 + k)) =
    [0x20, 0x60, 0x20, 0x20, 0x70,  0xF0, 0x10, 0xF0, 0x80, 0xF0,  0xF0, 0x10, 0xF0, 0x10, 0xF0,
     0x90, 0x90, 0xF0, 0x10, 0x10,  0xF0, 0x80, 0xF0, 0x10, 0xF0,  0xF0, 0x80, 0xF0, 0x90, 0xF0] ++
    [0xF0, 0x10, 0x20, 0x40, 0x40,  0xF0, 0x90, 0xF0, 0x90, 0xF0,  0xF0, 0x90, 0xF0, 0x10, 0xF0,
     0xF0, 0x90, 0xF0, 0x90, 0x90,  0xE0, 0x90, 0xE0, 0x90, 0xE0] ++
    [0xF0, 0x80, 0x80, 0x80, 0xF0,  0xE0, 0x90, 0x90, 0x90, 0xE0,  0xF0, 0x80, 0xF0, 0x80, 0xF0,
     0xF0, 0x80, 0xF0, 0x80, 0x80] ∧
  (∀ a, 80 ≤ a → a < 4096 → memRead s a = 0x00) ∧ (∀ r, getV s r = 0x00) ∧ s.i = 0x0000 ∧ s.sp = 0xFF ∧
  s.dt = 0x00 ∧ s.st = 0x00 ∧ (∀ k, getKey s k = false) ∧ (∀ q c, pixel s.vram q c = false)

/-! ### Memory and the stack (spec/20_memory.md) -/

/-- R52, R53: a byte written at any address reads back at every address equal to it modulo 4096, and every other address
reads as before; nothing is protected. The reduction modulo 4096 is the spec's decision D6 (log 6). -/
def Obligations.MemoryReadsBackModulo4096 : Prop :=
  ∀ (s : State) (a b : Nat) (u : Byte), s.mem.wf →
    memRead (memWrite s a u) b = if b % 4096 = a % 4096 then u else memRead s b

/-- R62: bytes pushed come back in reverse order, and SP with them, for every sequence of at most 256 pushes. The
stack's place and pointer are the spec's decisions D3, D4 and D5 (log 11). -/
def Obligations.StackIsLastInFirstOut : Prop :=
  ∀ (s : State) (bytes : List Byte), s.mem.wf → bytes.length ≤ 256 →
    (popAll (pushAll s bytes) bytes.length).2 = bytes.reverse ∧
    (popAll (pushAll s bytes) bytes.length).1.sp = s.sp

/-- R112: a RET with the SP a CALL left and the two stack bytes unchanged goes to the instruction after the CALL, restores
SP and changes no register; nor does the CALL. The stack's place is the spec's decision D3, D4 (log 11). -/
def Obligations.ReturnGoesBackAfterTheCall : Prop :=
  ∀ (nnn : Addr) (s : State), s.mem.wf → ∃ t, exec (.call nnn) s = .next t ∧ (∀ r, getV t r = getV s r) ∧
    ∀ u : State, u.sp = t.sp →
      memRead u (0x100 + s.sp.toNat) = memRead t (0x100 + s.sp.toNat) →
      memRead u (0x100 + (s.sp - 1).toNat) = memRead t (0x100 + (s.sp - 1).toNat) →
      ∃ w, exec .ret u = .next w ∧ w.pc = s.pc + 2 ∧ w.sp = s.sp ∧ ∀ r, getV w r = getV u r

/-! ### Control transfer (spec/40_step_and_control_flow.md sections 2 to 4) -/

/-- R104: 1nnn goes to nnn, odd or low targets included, and changes no register; a jump to its own address leaves the
whole state unchanged. With its encoding. -/
def Obligations.JumpGoesToItsTarget : Prop :=
  ∀ (nnn : Addr) (s : State), decodeWord (0x1#4 ++ nnn) = .instr (.jp nnn) ∧
    ∃ t, exec (.jp nnn) s = .next t ∧ t.pc.toNat = nnn.toNat ∧ (∀ r, getV t r = getV s r) ∧
      (s.pc.toNat = nnn.toNat → t = s)

/-- R110: Bnnn goes to nnn + V0, never Vx, odd or not, and changes no register. That the sum is stored unmasked is the
spec's decision D7 (log 7). -/
def Obligations.IndexedJumpAddsV0 : Prop :=
  ∀ (nnn : Addr) (s : State), decodeWord (0xB#4 ++ nnn) = .instr (.jpV0 nnn) ∧
    ∃ t, exec (.jpV0 nnn) s = .next t ∧ t.pc.toNat = nnn.toNat + (getV s 0).toNat ∧ ∀ r, getV t r = getV s r

/-- R106 to R109: the four skips on registers, away from the top of PC's range (the wrap there is in
PcAfterEveryInstruction). -/
def Obligations.RegisterSkipsTakeFourOrTwo : Prop :=
  ∀ (x y : Reg) (kk : Byte) (s : State), s.pc.toNat + 4 < 65536 →
    (decodeWord (0x3#4 ++ x ++ kk) = .instr (.seImm x kk) ∧
      ∃ t, exec (.seImm x kk) s = .next t ∧ (∀ r, getV t r = getV s r) ∧
        t.pc.toNat = if (getV s x).toNat = kk.toNat then s.pc.toNat + 4 else s.pc.toNat + 2) ∧
    (decodeWord (0x4#4 ++ x ++ kk) = .instr (.sneImm x kk) ∧
      ∃ t, exec (.sneImm x kk) s = .next t ∧ (∀ r, getV t r = getV s r) ∧
        t.pc.toNat = if (getV s x).toNat ≠ kk.toNat then s.pc.toNat + 4 else s.pc.toNat + 2) ∧
    (decodeWord (0x5#4 ++ x ++ y ++ 0x0#4) = .instr (.seReg x y) ∧
      ∃ t, exec (.seReg x y) s = .next t ∧ (∀ r, getV t r = getV s r) ∧
        t.pc.toNat = if (getV s x).toNat = (getV s y).toNat then s.pc.toNat + 4 else s.pc.toNat + 2) ∧
    (decodeWord (0x9#4 ++ x ++ y ++ 0x0#4) = .instr (.sneReg x y) ∧
      ∃ t, exec (.sneReg x y) s = .next t ∧ (∀ r, getV t r = getV s r) ∧
        t.pc.toNat = if (getV s x).toNat ≠ (getV s y).toNat then s.pc.toNat + 4 else s.pc.toNat + 2)

/-- R105, R63: CALL saves PC + 2 with the low byte at the higher address, moves SP down by 2 and jumps; the stack page and
SP are the spec's decisions D3, D4 and D5 (log 11), PC + 2 modulo 65536 its D7 (log 7). -/
def Obligations.CallSavesTheReturnAddress : Prop :=
  ∀ (nnn : Addr) (s : State), s.mem.wf → ∃ t, exec (.call nnn) s = .next t ∧ t.pc = nnn.setWidth 16 ∧
    t.sp = s.sp - 2 ∧ memRead t (0x100 + s.sp.toNat) = (s.pc + 2).extractLsb' 0 8 ∧
    memRead t (0x100 + (s.sp - 1).toNat) = (s.pc + 2).extractLsb' 8 8

/-- R103: RET pops the high byte, then the low byte, and takes the pair as PC, on an empty stack too; SP moves up by 2
modulo 256. The stack page and SP are the spec's decisions D3, D4 and D5 (log 11). -/
def Obligations.ReturnPopsHighThenLow : Prop :=
  ∀ s : State, ∃ t, exec .ret s = .next t ∧ t.sp = s.sp + 2 ∧
    t.pc.toNat = (memRead s (0x100 + (s.sp + 1).toNat)).toNat * 256 + (memRead s (0x100 + (s.sp + 2).toNat)).toNat

/-! ### Register file and ALU (spec/41_alu.md) -/

/-- R131, R133: 6xkk loads kk and 8xy0 copies Vy into Vx, VF like any register, and VF is written only as Vx. With their
encodings. -/
def Obligations.LoadsWriteVx : Prop :=
  ∀ (x y : Reg) (kk : Byte) (s : State),
    (decodeWord (0x6#4 ++ x ++ kk) = .instr (.ldImm x kk) ∧
      ∃ t, exec (.ldImm x kk) s = .next t ∧ getV t x = kk ∧ (x ≠ 15 → getV t 15 = getV s 15)) ∧
    (decodeWord (0x8#4 ++ x ++ y ++ 0x0#4) = .instr (.ldReg x y) ∧
      ∃ t, exec (.ldReg x y) s = .next t ∧ getV t x = getV s y ∧ (x ≠ 15 → getV t 15 = getV s 15))

/-- R134 to R136: OR, AND, XOR bit by bit; that VF is not written is the spec's decision D1 (log 10). -/
def Obligations.LogicWorksBitByBit : Prop :=
  ∀ (x y : Reg) (s : State),
    (∃ t, exec (.orReg x y) s = .next t ∧ (x ≠ 15 → getV t 15 = getV s 15) ∧
      ∀ b < 8, (getV t x).getLsbD b = ((getV s x).getLsbD b || (getV s y).getLsbD b)) ∧
    (∃ t, exec (.andReg x y) s = .next t ∧ (x ≠ 15 → getV t 15 = getV s 15) ∧
      ∀ b < 8, (getV t x).getLsbD b = ((getV s x).getLsbD b && (getV s y).getLsbD b)) ∧
    (∃ t, exec (.xorReg x y) s = .next t ∧ (x ≠ 15 → getV t 15 = getV s 15) ∧
      ∀ b < 8, (getV t x).getLsbD b = ((getV s x).getLsbD b != (getV s y).getLsbD b))

/-- The addition law of R143 for 8-bit registers: 7xkk (R132), with its encoding, adds modulo 256 and writes no flag (with
x = 15 VF itself is the operand and the destination); 8xy4 (R137), for x other than 15, leaves the low eight bits of the
sum and VF = 1 exactly when it exceeds 255.
(8xy4 with x = 15: FlagRegisterAliasing. Fx1E: IndexLoadAndAdd.) -/
def Obligations.AdditionLaw : Prop :=
  ∀ (x y : Reg) (kk : Byte) (s : State),
    (decodeWord (0x7#4 ++ x ++ kk) = .instr (.addImm x kk) ∧
      ∃ t, exec (.addImm x kk) s = .next t ∧ (getV t x).toNat = ((getV s x).toNat + kk.toNat) % 256 ∧
        (x ≠ 15 → getV t 15 = getV s 15)) ∧
    (∃ t, exec (.addReg x y) s = .next t ∧
      (x ≠ 15 → (getV t x).toNat = ((getV s x).toNat + (getV s y).toNat) % 256 ∧
        (getV t 15).toNat = if (getV s x).toNat + (getV s y).toNat > 255 then 1 else 0))

/-- R144, the subtraction law: the difference modulo 256, and VF = 1 exactly when the minuend is strictly greater, so that
equal operands give 0 and VF = 0. (x = 15, where both go to one register: FlagRegisterAliasing.) -/
def Obligations.SubtractionLaw : Prop :=
  ∀ (x y : Reg) (s : State),
    (∃ t, exec (.sub x y) s = .next t ∧
      (x ≠ 15 → ((getV t x).toNat =
        if (getV s x).toNat ≥ (getV s y).toNat then (getV s x).toNat - (getV s y).toNat
        else (getV s x).toNat + 256 - (getV s y).toNat) ∧
        (getV t 15).toNat = if (getV s x).toNat > (getV s y).toNat then 1 else 0)) ∧
    (∃ t, exec (.subn x y) s = .next t ∧
      (x ≠ 15 → ((getV t x).toNat =
        if (getV s y).toNat ≥ (getV s x).toNat then (getV s y).toNat - (getV s x).toNat
        else (getV s y).toNat + 256 - (getV s x).toNat) ∧
        (getV t 15).toNat = if (getV s y).toNat > (getV s x).toNat then 1 else 0))

/-- R145, the shift law: one position, VF the bit shifted out of the pre-shift value, Vy neither read (the outcome is the
same for every y) nor written. (x = 15, where both go to one register: FlagRegisterAliasing.) -/
def Obligations.ShiftLaw : Prop :=
  ∀ (x y : Reg) (s : State),
    (∃ t, exec (.shr x y) s = .next t ∧
      (x ≠ 15 → (getV t x).toNat = (getV s x).toNat / 2 ∧ (getV t 15).toNat = (getV s x).toNat % 2) ∧
      (y ≠ x → y ≠ 15 → getV t y = getV s y) ∧ ∀ z : Reg, exec (.shr x z) s = .next t) ∧
    (∃ t, exec (.shl x y) s = .next t ∧
      (x ≠ 15 → (getV t x).toNat = (getV s x).toNat * 2 % 256 ∧ (getV t 15).toNat = (getV s x).toNat / 128) ∧
      (y ≠ x → y ≠ 15 → getV t y = getV s y) ∧ ∀ z : Reg, exec (.shl x z) s = .next t)

/-- R146: with x = 15 the later of the two writes stays, the flag for 8xy4, 8xy5, 8xy7 and the shifted value for 8xy6,
8xyE. All of it is the spec's decision D2 (log 9). -/
def Obligations.FlagRegisterAliasing : Prop :=
  ∀ (y : Reg) (s : State),
    (∃ t, exec (.addReg 15 y) s = .next t ∧
      getV t 15 = if (getV s 15).toNat + (getV s y).toNat > 255 then 0x01 else 0x00) ∧
    (∃ t, exec (.sub 15 y) s = .next t ∧
      getV t 15 = if (getV s 15).toNat > (getV s y).toNat then 0x01 else 0x00) ∧
    (∃ t, exec (.subn 15 y) s = .next t ∧
      getV t 15 = if (getV s y).toNat > (getV s 15).toNat then 0x01 else 0x00) ∧
    (∃ t, exec (.shr 15 y) s = .next t ∧ (getV t 15).toNat = (getV s 15).toNat / 2) ∧
    (∃ t, exec (.shl 15 y) s = .next t ∧ (getV t 15).toNat = (getV s 15).toNat * 2 % 256)

/-- R142, R147: Cxkk writes a free random byte ANDed with kk to Vx, so a bit of Vx can be 1 only where kk has a 1, and the
next Cxkk draws another. The byte is a free value, for every count of draws (the spec's decision D14, log 1 and 2). -/
def Obligations.RandomByteIsMasked : Prop :=
  ∀ (x : Reg) (kk : Byte) (s : State), ∃ t, exec (.rnd x kk) s = .next t ∧ t.draws = s.draws + 1 ∧
    ∀ b < 8, (getV t x).getLsbD b = ((Config.rnd s.draws).getLsbD b && kk.getLsbD b)

/-! ### Index register, loads and stores (spec/42_index_and_memory.md) -/

/-- R160: Annn writes the zero-extended immediate, so bits 15:12 of I become 0. R161: Fx1E adds Vx to I modulo 65536 and
writes no flag. Neither writes a register. The zero-extension and the modulus are the spec's decision D9 (log 7). -/
def Obligations.IndexLoadAndAdd : Prop :=
  ∀ (nnn : Addr) (x : Reg) (s : State),
    (decodeWord (0xA#4 ++ nnn) = .instr (.ldI nnn) ∧
      ∃ t, exec (.ldI nnn) s = .next t ∧ t.i.toNat = nnn.toNat ∧ ∀ r, getV t r = getV s r) ∧
    (decodeWord (0xF#4 ++ x ++ 0x1E#8) = .instr (.addI x) ∧
      ∃ t, exec (.addI x) s = .next t ∧ t.i.toNat = (s.i.toNat + (getV s x).toNat) % 65536 ∧
        ∀ r, getV t r = getV s r)

/-- R162: Fx29 points I at the glyph that the low nibble of Vx selects, and reads no memory: the same state with another
memory gets the same I. -/
def Obligations.FontAddressFromLowNibble : Prop :=
  ∀ (x : Reg) (s : State), decodeWord (0xF#4 ++ x ++ 0x29#8) = .instr (.ldF x) ∧
    ∃ t, exec (.ldF x) s = .next t ∧ t.i.toNat = fontOffset + 5 * ((getV s x).toNat % 16) ∧
      (∀ r, getV t r = getV s r) ∧ ∀ m : Memory, exec (.ldF x) { s with mem := m } = .next { t with mem := m }

/-- R163: Fx33 stores the three decimal digits of Vx, one a byte, at I, I + 1, I + 2, and leaves I. The addresses wrap
modulo 4096 by the spec's decision D6 (log 6), I is kept by D1 (log 10). -/
def Obligations.DecimalDigitsAreStored : Prop :=
  ∀ (x : Reg) (s : State), s.mem.wf → ∃ t, exec (.ldB x) s = .next t ∧ t.i = s.i ∧
    (getV s x).toNat = 100 * (memRead t s.i.toNat).toNat + 10 * (memRead t (s.i.toNat + 1)).toNat +
      (memRead t (s.i.toNat + 2)).toNat ∧
    (memRead t (s.i.toNat + 1)).toNat < 10 ∧ (memRead t (s.i.toNat + 2)).toNat < 10

/-- R164: Fx55 stores V0 to Vx, both inclusive, at ascending addresses from I, and leaves I and every register. Wrap and
kept I: the spec's decisions D6 and D1 (log 6, log 10). -/
def Obligations.StoreWritesV0ToVx : Prop :=
  ∀ (x : Reg) (s : State), s.mem.wf → ∃ t, exec (.ldMemVx x) s = .next t ∧ t.i = s.i ∧ (∀ r, getV t r = getV s r) ∧
    ∀ r : Reg, r.toNat ≤ x.toNat → memRead t (s.i.toNat + r.toNat) = getV s r

/-- R165: Fx65 loads V0 to Vx, both inclusive, from ascending addresses from I; registers above x, I and memory are kept.
Wrap and kept I: the spec's decisions D6 and D1 (log 6, log 10). -/
def Obligations.LoadReadsV0ToVx : Prop :=
  ∀ (x : Reg) (s : State), ∃ t, exec (.ldVxMem x) s = .next t ∧ t.i = s.i ∧ t.mem = s.mem ∧
    ∀ r : Reg, getV t r = if r.toNat ≤ x.toNat then memRead s (s.i.toNat + r.toNat) else getV s r

/-! ### Frame buffer and display (spec/43_display.md) -/

/-- R184: 00E0 puts out every pixel, changes no register, memory byte, timer or key, and advances PC by 2 (here away from
the top of PC's range). -/
def Obligations.ClearScreenPutsOutEveryPixel : Prop :=
  ∀ s : State, decodeWord 0x00E0 = .instr .cls ∧
    ∃ t, exec .cls s = .next t ∧ (∀ q c, pixel t.vram q c = false) ∧ frame [.vram] nowhere nowhere s t ∧
      (s.pc.toNat + 2 < 65536 → t.pc.toNat = s.pc.toNat + 2)

/-- R182: DrawByte XORs the byte, most significant bit leftmost, into eight pixels of one row with horizontal wrap, leaves
every other pixel, and signals a collision exactly when a lit pixel met a 1 bit. -/
def Obligations.DrawByteXorsOneRow : Prop :=
  ∀ (x : Byte) (row : Fin 32) (d : Byte) (g : Vram),
    (∀ q c, pixel (drawByte x row d g).1 q c = (pixel g q c ^^ (decide (q = row) && byteCovers x d c))) ∧
    ((drawByte x row d g).2 = true ↔ ∃ c, pixel g row c = true ∧ byteCovers x d c = true)

/-- R187, the XOR laws: the same DrawByte twice restores the buffer, and the second call collides exactly when d ≠ 0 and
not every 1 bit of d put out a pixel in the first call. -/
def Obligations.DrawByteTwiceRestores : Prop :=
  ∀ (x : Byte) (row : Fin 32) (d : Byte) (g : Vram),
    (drawByte x row d (drawByte x row d g).1).1 = g ∧
    ((drawByte x row d (drawByte x row d g).1).2 = true ↔
      ∃ c, byteCovers x d c = true ∧ pixel g row c = false)

/-- R185 as a refinement of the row-by-row loop: after Dxyn every pixel is the old one XOR the sprite's, rows wrapping at
32 and columns at 64, and VF is 1 exactly when a lit pixel met a sprite bit (also with n = 0, and with x or y = 15, where
the old VF is the coordinate). Sprite addresses wrap modulo 4096 by the spec's decision D6 (log 6), the old VF as
coordinate is its D2 (log 9). -/
def Obligations.DrawXorsTheSprite : Prop :=
  ∀ (x y : Reg) (n : Nibble) (s : State), ∃ t, exec (.drw x y n) s = .next t ∧
    (∀ q c, pixel t.vram q c =
      (pixel s.vram q c ^^ spriteCovers s (getV s x) (getV s y) n.toNat q c)) ∧
    (getV t 15 = 0x01 ∨ getV t 15 = 0x00) ∧
    (getV t 15 = 0x01 ↔
      ∃ q c, pixel s.vram q c = true ∧ spriteCovers s (getV s x) (getV s y) n.toNat q c = true)

/-- R183: a snapshot is the 2048 pixels in the index order 64·y + x, and takes nothing from the state. -/
def Obligations.SnapshotIsTheWholeGrid : Prop :=
  ∀ s : State, handle .snapshot s = .next s ∧
    ∃ grid : List Bool, eventOutput .snapshot s = .pixels grid ∧ grid.length = 2048 ∧
      ∀ (q : Fin 32) (c : Fin 64), grid[64 * q.val + c.val]? = some (pixel s.vram q c)

/-- R186: a SNAPSHOT during a Dxyn with n rows sees, for some k in 0..n, the first k rows of the sprite drawn and the others
not, never a part of a row; there is one such point for each k, the last being the finished sprite. -/
def Obligations.SnapshotDuringDrawSeesWholeRows : Prop :=
  ∀ (x y : Reg) (n : Nibble) (s : State), s.wait = none → decodeNext s = .instr (.drw x y n) →
    (framesDuringStep s).length = n.toNat + 1 ∧
    ∀ k ≤ n.toNat, ∃ g, (framesDuringStep s)[k]? = some g ∧
      ∀ q c, pixel g q c = (pixel s.vram q c ^^ spriteCovers s (getV s x) (getV s y) k q c)

/-! ### Keypad and timers (spec/44_keys_and_timers.md) -/

/-- R200, R201: SKP and SKNP, away from the top of PC's range; that the low nibble of Vx selects the key is the spec's
decision D10 (R206, log 12). -/
def Obligations.KeySkipsTestTheSelectedKey : Prop :=
  ∀ (x : Reg) (s : State) (k : Nibble), s.pc.toNat + 4 < 65536 → k.toNat = (getV s x).toNat % 16 →
    (∃ t, exec (.skp x) s = .next t ∧ t.key = s.key ∧
      t.pc.toNat = if getKey s k = true then s.pc.toNat + 4 else s.pc.toNat + 2) ∧
    (∃ t, exec (.sknp x) s = .next t ∧ t.key = s.key ∧
      t.pc.toNat = if getKey s k = false then s.pc.toNat + 4 else s.pc.toNat + 2)

/-- R202, R204, R205: the three moves between Vx and a timer, with their encodings; DT is not changed by the read; a DT of 0
counts no more; a non-zero ST turns the sound-active output on at once and 0 turns it off. -/
def Obligations.TimerMovesCopyTheByte : Prop :=
  ∀ (x : Reg) (s : State),
    (decodeWord (0xF#4 ++ x ++ 0x07#8) = .instr (.ldVxDt x) ∧
      ∃ t, exec (.ldVxDt x) s = .next t ∧ getV t x = s.dt ∧ t.dt = s.dt ∧ (x ≠ 15 → getV t 15 = getV s 15)) ∧
    (decodeWord (0xF#4 ++ x ++ 0x15#8) = .instr (.ldDtVx x) ∧
      ∃ t, exec (.ldDtVx x) s = .next t ∧ t.dt = getV s x ∧ (∀ r, getV t r = getV s r) ∧
        ((getV s x).toNat = 0 → (tickEvent t).dt.toNat = 0)) ∧
    (decodeWord (0xF#4 ++ x ++ 0x18#8) = .instr (.ldStVx x) ∧
      ∃ t, exec (.ldStVx x) s = .next t ∧ t.st = getV s x ∧ (∀ r, getV t r = getV s r) ∧
        (soundActive t = true ↔ (getV s x).toNat ≠ 0))

/-- R203: Fx0A enters the key-wait on register x, takes the implicit advance and writes no register, whatever key is
already down. That PC advances at once is the spec's decision D15 (log 13), its sum modulo 65536 D7 (log 7). -/
def Obligations.GetKeyEntersTheWait : Prop :=
  ∀ (x : Reg) (s : State), ∃ t, exec (.ldVxK x) s = .next t ∧ t.wait = some x ∧ t.pc = s.pc + 2 ∧
    ∀ r, getV t r = getV s r

/-- R210: TICK takes 1 from each timer that is not zero, leaves a zero one, and changes nothing else. -/
def Obligations.TickCountsDownToZero : Prop :=
  ∀ s : State, ∃ t, handle .tick s = .next t ∧ t.dt.toNat = s.dt.toNat - 1 ∧ t.st.toNat = s.st.toNat - 1 ∧
    t.pc = s.pc ∧ frame [.dt, .st] nowhere nowhere s t

/-- R212: KEY sets its flag; a key-down during a key-wait writes the key's number to the waiting register and ends the wait,
whatever the flag was before; a key-up never does; nothing else changes. That there is no await-release mode is the
spec's decision D16 (log 14). -/
def Obligations.KeyEventResolvesTheWait : Prop :=
  ∀ (k : Nibble) (down : Bool) (s : State), ∃ t, handle (.key k down) s = .next t ∧
    (∀ j, getKey t j = if j = k then down else getKey s j) ∧ t.pc = s.pc ∧
    (∀ r, down = true → s.wait = some r →
      t.wait = none ∧ (getV t r).toNat = k.toNat ∧ frame [.key, .wait] (· = r) nowhere s t) ∧
    (down = false ∨ s.wait = none → frame [.key] nowhere nowhere s t)

/-- R213, the whole key-wait state machine over every event: entered only by an executed Fx0A, left only by a key-down or by
RESET. It rests on the spec's decisions D15 and D16 (log 13, log 14). -/
def Obligations.KeyWaitStateMachine : Prop :=
  ∀ (e : Event) (s : State), ∃ t, handle e s = .next t ∧ t.wait = waitAfter e s

/-- R245 (a): an instruction that touches no timer gives the same with a TICK before it as after it. -/
def Obligations.TickCommutesWithOtherInstructions : Prop :=
  ∀ (i : Instr) (s : State), (∀ x, i ≠ .ldVxDt x ∧ i ≠ .ldDtVx x ∧ i ≠ .ldStVx x) →
    ∃ t, exec i s = .next t ∧ exec i (tickEvent s) = .next (tickEvent t)

/-! ### Interface events (spec/60_exceptions.md) -/

/-- R238, R251: LOAD copies at most 3584 bytes to 0x200 upward and changes nothing else; a longer sequence is rejected with
OutOfBounds and nothing changes. LOAD between steps is the spec's decision D22 (log 18). -/
def Obligations.LoadCopiesOrIsRejected : Prop :=
  ∀ (bytes : List Byte) (s : State), s.mem.wf → ∃ t, handle (.load bytes) s = .next t ∧
    (bytes.length ≤ 3584 → eventOutput (.load bytes) s = .loaded ∧ t = { s with mem := t.mem } ∧
      (∀ k (h : k < bytes.length), memRead t (0x200 + k) = bytes[k]) ∧
      ∀ a < 4096, a < 0x200 ∨ 0x200 + bytes.length ≤ a → memRead t a = memRead s a) ∧
    (3584 < bytes.length → eventOutput (.load bytes) s = .outOfBounds ∧ t = s)

/-- R237: RESET gives the reset state from any state (the spec's decision D27, log 16); the model's own count of draws is no
state of the spec's and is kept (log 2). -/
def Obligations.ResetFromAnyState : Prop :=
  ∀ s : State, ∃ t, handle .reset s = .next t ∧ t = { State.reset with draws := s.draws }

/-- R211, R243: the sound-active output is ST > 0, the debug reads answer V[r], PC, SP and I, and none of them changes
anything. The number that the read of SP shows is an address in the encoding of the spec's decision D4 (log 11). -/
def Obligations.QueriesAnswerAndChangeNothing : Prop :=
  ∀ s : State, eventOutput .soundQuery s = .bit (decide (s.st.toNat > 0)) ∧ handle .soundQuery s = .next s ∧
    (∀ r, eventOutput (.debugRead (.v r)) s = .byte (getV s r)) ∧
    eventOutput (.debugRead .pc) s = .word s.pc ∧ eventOutput (.debugRead .sp) s = .byte s.sp ∧
    eventOutput (.debugRead .i) s = .word s.i ∧ ∀ d, handle (.debugRead d) s = .next s

/-! ### Frames: what each instruction leaves as it was (R28; the spec's decision D1, log 10) -/

/-- Control transfer: no register; SP by RET and CALL alone; memory by CALL alone, at 0x100 + SP and 0x100 + (SP - 1). -/
def Obligations.FrameOfControlTransfer : Prop :=
  ∀ (x y : Reg) (kk : Byte) (nnn : Addr) (s : State),
    (∃ t, exec .ret s = .next t ∧ frame [.sp] nowhere nowhere s t) ∧
    (∃ t, exec (.jp nnn) s = .next t ∧ frame [] nowhere nowhere s t) ∧
    (∃ t, exec (.call nnn) s = .next t ∧
      frame [.sp] nowhere (fun b => b = (stackBase + s.sp.toNat) % 4096 ∨ b = (stackBase + (s.sp - 1).toNat) % 4096)
        s t) ∧
    (∃ t, exec (.jpV0 nnn) s = .next t ∧ frame [] nowhere nowhere s t) ∧
    (∃ t, exec (.seImm x kk) s = .next t ∧ frame [] nowhere nowhere s t) ∧
    (∃ t, exec (.sneImm x kk) s = .next t ∧ frame [] nowhere nowhere s t) ∧
    (∃ t, exec (.seReg x y) s = .next t ∧ frame [] nowhere nowhere s t) ∧
    (∃ t, exec (.sneReg x y) s = .next t ∧ frame [] nowhere nowhere s t)

/-- ALU: Vx, and VF for the five with a flag; Cxkk also the model's own count of draws; no memory. -/
def Obligations.FrameOfAlu : Prop :=
  ∀ (x y : Reg) (kk : Byte) (s : State),
    (∃ t, exec (.ldImm x kk) s = .next t ∧ frame [] (· = x) nowhere s t) ∧
    (∃ t, exec (.addImm x kk) s = .next t ∧ frame [] (· = x) nowhere s t) ∧
    (∃ t, exec (.ldReg x y) s = .next t ∧ frame [] (· = x) nowhere s t) ∧
    (∃ t, exec (.orReg x y) s = .next t ∧ frame [] (· = x) nowhere s t) ∧
    (∃ t, exec (.andReg x y) s = .next t ∧ frame [] (· = x) nowhere s t) ∧
    (∃ t, exec (.xorReg x y) s = .next t ∧ frame [] (· = x) nowhere s t) ∧
    (∃ t, exec (.addReg x y) s = .next t ∧ frame [] (fun r => r = x ∨ r = 15) nowhere s t) ∧
    (∃ t, exec (.sub x y) s = .next t ∧ frame [] (fun r => r = x ∨ r = 15) nowhere s t) ∧
    (∃ t, exec (.shr x y) s = .next t ∧ frame [] (fun r => r = x ∨ r = 15) nowhere s t) ∧
    (∃ t, exec (.subn x y) s = .next t ∧ frame [] (fun r => r = x ∨ r = 15) nowhere s t) ∧
    (∃ t, exec (.shl x y) s = .next t ∧ frame [] (fun r => r = x ∨ r = 15) nowhere s t) ∧
    (∃ t, exec (.rnd x kk) s = .next t ∧ frame [.draws] (· = x) nowhere s t)

/-- Index register, loads and stores: I by Annn, Fx1E and Fx29 alone; memory by Fx33 at I to I + 2 and by Fx55 at I to
I + x, modulo 4096 (the spec's decision D6, log 6); registers by Fx65, V0 to Vx. -/
def Obligations.FrameOfIndexAndMemory : Prop :=
  ∀ (x : Reg) (nnn : Addr) (s : State),
    (∃ t, exec (.ldI nnn) s = .next t ∧ frame [.i] nowhere nowhere s t) ∧
    (∃ t, exec (.addI x) s = .next t ∧ frame [.i] nowhere nowhere s t) ∧
    (∃ t, exec (.ldF x) s = .next t ∧ frame [.i] nowhere nowhere s t) ∧
    (∃ t, exec (.ldB x) s = .next t ∧
      frame [] nowhere (fun b => ∃ k < 3, b = indexAddr s k % 4096) s t) ∧
    (∃ t, exec (.ldMemVx x) s = .next t ∧
      frame [] nowhere (fun b => ∃ k ≤ x.toNat, b = indexAddr s k % 4096) s t) ∧
    (∃ t, exec (.ldVxMem x) s = .next t ∧ frame [] (fun r => r.toNat ≤ x.toNat) nowhere s t)

/-- Display, keys and timers: the frame buffer by 00E0 and Dxyn alone, VF by Dxyn, Vx by Fx07, DT by Fx15, ST by Fx18, WAIT
by Fx0A; no key flag, no memory. -/
def Obligations.FrameOfDisplayKeysAndTimers : Prop :=
  ∀ (x y : Reg) (n : Nibble) (s : State),
    (∃ t, exec .cls s = .next t ∧ frame [.vram] nowhere nowhere s t) ∧
    (∃ t, exec (.drw x y n) s = .next t ∧ frame [.vram] (· = 15) nowhere s t) ∧
    (∃ t, exec (.skp x) s = .next t ∧ frame [] nowhere nowhere s t) ∧
    (∃ t, exec (.sknp x) s = .next t ∧ frame [] nowhere nowhere s t) ∧
    (∃ t, exec (.ldVxDt x) s = .next t ∧ frame [] (· = x) nowhere s t) ∧
    (∃ t, exec (.ldVxK x) s = .next t ∧ frame [.wait] nowhere nowhere s t) ∧
    (∃ t, exec (.ldDtVx x) s = .next t ∧ frame [.dt] nowhere nowhere s t) ∧
    (∃ t, exec (.ldStVx x) s = .next t ∧ frame [.st] nowhere nowhere s t)

/-! ### Rules of the whole machine -/

/-- The "written by" column of spec/10_state.md section 1 for a STEP: whichever piece of state a step changed, the
instruction it ran is one the table names; KEY is changed by no step. It rests on R28, the spec's decision D1 (log 10). -/
def Obligations.StepChangesStateOnlyAsTheTableSays : Prop :=
  ∀ s t : State, step s = .next t →
    t.key = s.key ∧
    (t.i ≠ s.i → ∃ nnn x, decodeNext s = .instr (.ldI nnn) ∨ decodeNext s = .instr (.addI x) ∨
      decodeNext s = .instr (.ldF x)) ∧
    (t.sp ≠ s.sp → decodeNext s = .instr .ret ∨ ∃ nnn, decodeNext s = .instr (.call nnn)) ∧
    (t.dt ≠ s.dt → ∃ x, decodeNext s = .instr (.ldDtVx x)) ∧
    (t.st ≠ s.st → ∃ x, decodeNext s = .instr (.ldStVx x)) ∧
    (t.wait ≠ s.wait → s.wait = none ∧ ∃ x, decodeNext s = .instr (.ldVxK x) ∧ t.wait = some x) ∧
    (t.vram ≠ s.vram → decodeNext s = .instr .cls ∨ ∃ x y n, decodeNext s = .instr (.drw x y n)) ∧
    (t.mem ≠ s.mem → ∃ nnn x, decodeNext s = .instr (.call nnn) ∨ decodeNext s = .instr (.ldB x) ∨
      decodeNext s = .instr (.ldMemVx x))

/-- R31, R35 (c): a program learns of the pixels only through VF after Dxyn. Two states that differ in nothing but the
frame buffer give, under any instruction, states that differ in nothing but the frame buffer and, for Dxyn, VF. -/
def Obligations.PixelsReachAProgramOnlyThroughVf : Prop :=
  ∀ (i : Instr) (s : State) (g : Vram), ∃ t g' u, exec i s = .next t ∧
    exec i { s with vram := g } = .next { setV t 15 u with vram := g' } ∧
    ((∀ x y n, i ≠ .drw x y n) → u = getV t 15)

/-- R26, R35 (d): no instruction reads ST. Two states that differ in nothing but ST give, under any instruction, states that
differ in nothing but ST, and under Fx18 the same state. -/
def Obligations.NoInstructionReadsTheSoundTimer : Prop :=
  ∀ (i : Instr) (s : State) (u : Byte), ∃ t, exec i s = .next t ∧
    ((∀ x, i ≠ .ldStVx x) → exec i { s with st := u } = .next { t with st := u }) ∧
    ((∃ x, i = .ldStVx x) → exec i { s with st := u } = .next t)
end

