-- ==== Sys2Proof/Laws/Decode.lean ====
section
/-! SUPPORT. The fields of a word built by the encoder, format by format (R10, R81), and the opcode table's form. -/

namespace Sys2Proof

open BitVec

/-- No two rows of the table overlap (R83). -/
theorem opcodeTable_wf : tableWf opcodeTable = true := by decide

/-! ### Format NNN -/

theorem fieldNnn_nnn (f : Nibble) (nnn : Addr) : fieldNnn (f ++ nnn) = nnn := by
  unfold fieldNnn
  rw [extractLsb'_append_eq_of_add_le (by decide)]
  exact extractLsb'_eq_self

/-- Under the family mask only the family is left. -/
theorem mask_nnn (f : Nibble) (nnn : Addr) : (f ++ nnn : Word) &&& 0xF000#16 = f ++ 0#12 := by
  rw [show (0xF000#16) = 0xF#4 ++ 0#12 by decide, and_append, show (0xF#4) = allOnes 4 by decide, and_allOnes, and_zero]

/-! ### Format XKK (and XSS, whose low byte is the selector) -/

theorem fieldX_xkk (f x : Nibble) (kk : Byte) : fieldX (f ++ x ++ kk) = x := by
  unfold fieldX
  rw [extractLsb'_append_eq_of_le (by decide), extractLsb'_append_eq_of_add_le (by decide)]
  exact extractLsb'_eq_self

theorem fieldKk_xkk (f x : Nibble) (kk : Byte) : fieldKk (f ++ x ++ kk) = kk := by
  unfold fieldKk
  rw [extractLsb'_append_eq_of_add_le (by decide)]
  exact extractLsb'_eq_self

theorem mask_xkk (f x : Nibble) (kk : Byte) : (f ++ x ++ kk : Word) &&& 0xF000#16 = f ++ 0#4 ++ 0#8 := by
  rw [show (0xF000#16) = 0xF#4 ++ 0#4 ++ 0#8 by decide, and_append, and_append, show (0xF#4) = allOnes 4 by decide,
    and_allOnes, and_zero, and_zero]

theorem mask_xss (f x : Nibble) (sel : Byte) : (f ++ x ++ sel : Word) &&& 0xF0FF#16 = f ++ 0#4 ++ sel := by
  rw [show (0xF0FF#16) = 0xF#4 ++ 0#4 ++ 0xFF#8 by decide, and_append, and_append,
    show (0xF#4) = allOnes 4 by decide, show (0xFF#8) = allOnes 8 by decide, and_allOnes, and_zero, and_allOnes]

/-! ### Formats XYS and XYN -/

theorem fieldX_xyn (f x y n : Nibble) : fieldX (f ++ x ++ y ++ n) = x := by
  unfold fieldX
  rw [extractLsb'_append_eq_of_le (by decide), extractLsb'_append_eq_of_le (by decide),
    extractLsb'_append_eq_of_add_le (by decide)]
  exact extractLsb'_eq_self

theorem fieldY_xyn (f x y n : Nibble) : fieldY (f ++ x ++ y ++ n) = y := by
  unfold fieldY
  rw [extractLsb'_append_eq_of_le (by decide), extractLsb'_append_eq_of_add_le (by decide)]
  exact extractLsb'_eq_self

theorem fieldN_xyn (f x y n : Nibble) : fieldN (f ++ x ++ y ++ n) = n := by
  unfold fieldN
  rw [extractLsb'_append_eq_of_add_le (by decide)]
  exact extractLsb'_eq_self

theorem mask_xys (f x y n : Nibble) : (f ++ x ++ y ++ n : Word) &&& 0xF00F#16 = f ++ 0#4 ++ 0#4 ++ n := by
  rw [show (0xF00F#16) = 0xF#4 ++ 0#4 ++ 0#4 ++ 0xF#4 by decide, and_append, and_append, and_append,
    show (0xF#4) = allOnes 4 by decide, and_allOnes, and_allOnes, and_zero, and_zero]

theorem mask_xyn (f x y n : Nibble) : (f ++ x ++ y ++ n : Word) &&& 0xF000#16 = f ++ 0#4 ++ 0#4 ++ 0#4 := by
  rw [show (0xF000#16) = 0xF#4 ++ 0#4 ++ 0#4 ++ 0#4 by decide, and_append, and_append, and_append,
    show (0xF#4) = allOnes 4 by decide, and_allOnes, and_zero, and_zero, and_zero]

/-! ### The two bytes of a word -/

/-- A word cut into its bytes and joined again (R54). -/
theorem wordBytes_join (ir : Word) : (wordBytes ir).1 ++ (wordBytes ir).2 = ir := by
  unfold wordBytes
  rw [extractLsb'_append_extractLsb'_eq_extractLsb' (by decide)]
  exact extractLsb'_eq_self

theorem decode_wordBytes (ir : Word) : decode (wordBytes ir).1 (wordBytes ir).2 = decodeWord ir := by
  unfold decode
  rw [wordBytes_join]

end Sys2Proof
end

