-- ==== Sys2Proof/Laws/State.lean ====
section
/-! SUPPORT. What each field holds after each update of the state: one lemma per field per update, so that no proof
unfolds a record update. -/

namespace Sys2Proof.Machine

variable (s : State)

@[simp] theorem setV_v (x : Reg) (u : Byte) : (setV s x u).v = s.v.set x.toNat u x.isLt := rfl
@[simp] theorem setV_i (x : Reg) (u : Byte) : (setV s x u).i = s.i := rfl
@[simp] theorem setV_pc (x : Reg) (u : Byte) : (setV s x u).pc = s.pc := rfl
@[simp] theorem setV_sp (x : Reg) (u : Byte) : (setV s x u).sp = s.sp := rfl
@[simp] theorem setV_dt (x : Reg) (u : Byte) : (setV s x u).dt = s.dt := rfl
@[simp] theorem setV_st (x : Reg) (u : Byte) : (setV s x u).st = s.st := rfl
@[simp] theorem setV_key (x : Reg) (u : Byte) : (setV s x u).key = s.key := rfl
@[simp] theorem setV_wait (x : Reg) (u : Byte) : (setV s x u).wait = s.wait := rfl
@[simp] theorem setV_mem (x : Reg) (u : Byte) : (setV s x u).mem = s.mem := rfl
@[simp] theorem setV_vram (x : Reg) (u : Byte) : (setV s x u).vram = s.vram := rfl
@[simp] theorem setV_draws (x : Reg) (u : Byte) : (setV s x u).draws = s.draws := rfl

@[simp] theorem setI_v (u : Word) : (setI s u).v = s.v := rfl
@[simp] theorem setI_i (u : Word) : (setI s u).i = u := rfl
@[simp] theorem setI_pc (u : Word) : (setI s u).pc = s.pc := rfl
@[simp] theorem setI_sp (u : Word) : (setI s u).sp = s.sp := rfl
@[simp] theorem setI_dt (u : Word) : (setI s u).dt = s.dt := rfl
@[simp] theorem setI_st (u : Word) : (setI s u).st = s.st := rfl
@[simp] theorem setI_key (u : Word) : (setI s u).key = s.key := rfl
@[simp] theorem setI_wait (u : Word) : (setI s u).wait = s.wait := rfl
@[simp] theorem setI_mem (u : Word) : (setI s u).mem = s.mem := rfl
@[simp] theorem setI_vram (u : Word) : (setI s u).vram = s.vram := rfl
@[simp] theorem setI_draws (u : Word) : (setI s u).draws = s.draws := rfl

@[simp] theorem setPc_v (u : Word) : (setPc s u).v = s.v := rfl
@[simp] theorem setPc_i (u : Word) : (setPc s u).i = s.i := rfl
@[simp] theorem setPc_pc (u : Word) : (setPc s u).pc = u := rfl
@[simp] theorem setPc_sp (u : Word) : (setPc s u).sp = s.sp := rfl
@[simp] theorem setPc_dt (u : Word) : (setPc s u).dt = s.dt := rfl
@[simp] theorem setPc_st (u : Word) : (setPc s u).st = s.st := rfl
@[simp] theorem setPc_key (u : Word) : (setPc s u).key = s.key := rfl
@[simp] theorem setPc_wait (u : Word) : (setPc s u).wait = s.wait := rfl
@[simp] theorem setPc_mem (u : Word) : (setPc s u).mem = s.mem := rfl
@[simp] theorem setPc_vram (u : Word) : (setPc s u).vram = s.vram := rfl
@[simp] theorem setPc_draws (u : Word) : (setPc s u).draws = s.draws := rfl

@[simp] theorem setSp_v (u : Byte) : (setSp s u).v = s.v := rfl
@[simp] theorem setSp_i (u : Byte) : (setSp s u).i = s.i := rfl
@[simp] theorem setSp_pc (u : Byte) : (setSp s u).pc = s.pc := rfl
@[simp] theorem setSp_sp (u : Byte) : (setSp s u).sp = u := rfl
@[simp] theorem setSp_dt (u : Byte) : (setSp s u).dt = s.dt := rfl
@[simp] theorem setSp_st (u : Byte) : (setSp s u).st = s.st := rfl
@[simp] theorem setSp_key (u : Byte) : (setSp s u).key = s.key := rfl
@[simp] theorem setSp_wait (u : Byte) : (setSp s u).wait = s.wait := rfl
@[simp] theorem setSp_mem (u : Byte) : (setSp s u).mem = s.mem := rfl
@[simp] theorem setSp_vram (u : Byte) : (setSp s u).vram = s.vram := rfl
@[simp] theorem setSp_draws (u : Byte) : (setSp s u).draws = s.draws := rfl

@[simp] theorem setDt_v (u : Byte) : (setDt s u).v = s.v := rfl
@[simp] theorem setDt_i (u : Byte) : (setDt s u).i = s.i := rfl
@[simp] theorem setDt_pc (u : Byte) : (setDt s u).pc = s.pc := rfl
@[simp] theorem setDt_sp (u : Byte) : (setDt s u).sp = s.sp := rfl
@[simp] theorem setDt_dt (u : Byte) : (setDt s u).dt = u := rfl
@[simp] theorem setDt_st (u : Byte) : (setDt s u).st = s.st := rfl
@[simp] theorem setDt_key (u : Byte) : (setDt s u).key = s.key := rfl
@[simp] theorem setDt_wait (u : Byte) : (setDt s u).wait = s.wait := rfl
@[simp] theorem setDt_mem (u : Byte) : (setDt s u).mem = s.mem := rfl
@[simp] theorem setDt_vram (u : Byte) : (setDt s u).vram = s.vram := rfl
@[simp] theorem setDt_draws (u : Byte) : (setDt s u).draws = s.draws := rfl

@[simp] theorem setSt_v (u : Byte) : (setSt s u).v = s.v := rfl
@[simp] theorem setSt_i (u : Byte) : (setSt s u).i = s.i := rfl
@[simp] theorem setSt_pc (u : Byte) : (setSt s u).pc = s.pc := rfl
@[simp] theorem setSt_sp (u : Byte) : (setSt s u).sp = s.sp := rfl
@[simp] theorem setSt_dt (u : Byte) : (setSt s u).dt = s.dt := rfl
@[simp] theorem setSt_st (u : Byte) : (setSt s u).st = u := rfl
@[simp] theorem setSt_key (u : Byte) : (setSt s u).key = s.key := rfl
@[simp] theorem setSt_wait (u : Byte) : (setSt s u).wait = s.wait := rfl
@[simp] theorem setSt_mem (u : Byte) : (setSt s u).mem = s.mem := rfl
@[simp] theorem setSt_vram (u : Byte) : (setSt s u).vram = s.vram := rfl
@[simp] theorem setSt_draws (u : Byte) : (setSt s u).draws = s.draws := rfl

@[simp] theorem setKey_v (k : Nibble) (d : Bool) : (setKey s k d).v = s.v := rfl
@[simp] theorem setKey_i (k : Nibble) (d : Bool) : (setKey s k d).i = s.i := rfl
@[simp] theorem setKey_pc (k : Nibble) (d : Bool) : (setKey s k d).pc = s.pc := rfl
@[simp] theorem setKey_sp (k : Nibble) (d : Bool) : (setKey s k d).sp = s.sp := rfl
@[simp] theorem setKey_dt (k : Nibble) (d : Bool) : (setKey s k d).dt = s.dt := rfl
@[simp] theorem setKey_st (k : Nibble) (d : Bool) : (setKey s k d).st = s.st := rfl
@[simp] theorem setKey_key (k : Nibble) (d : Bool) : (setKey s k d).key = s.key.set k.toNat d k.isLt := rfl
@[simp] theorem setKey_wait (k : Nibble) (d : Bool) : (setKey s k d).wait = s.wait := rfl
@[simp] theorem setKey_mem (k : Nibble) (d : Bool) : (setKey s k d).mem = s.mem := rfl
@[simp] theorem setKey_vram (k : Nibble) (d : Bool) : (setKey s k d).vram = s.vram := rfl
@[simp] theorem setKey_draws (k : Nibble) (d : Bool) : (setKey s k d).draws = s.draws := rfl

@[simp] theorem setWait_v (w : Option Reg) : (setWait s w).v = s.v := rfl
@[simp] theorem setWait_i (w : Option Reg) : (setWait s w).i = s.i := rfl
@[simp] theorem setWait_pc (w : Option Reg) : (setWait s w).pc = s.pc := rfl
@[simp] theorem setWait_sp (w : Option Reg) : (setWait s w).sp = s.sp := rfl
@[simp] theorem setWait_dt (w : Option Reg) : (setWait s w).dt = s.dt := rfl
@[simp] theorem setWait_st (w : Option Reg) : (setWait s w).st = s.st := rfl
@[simp] theorem setWait_key (w : Option Reg) : (setWait s w).key = s.key := rfl
@[simp] theorem setWait_wait (w : Option Reg) : (setWait s w).wait = w := rfl
@[simp] theorem setWait_mem (w : Option Reg) : (setWait s w).mem = s.mem := rfl
@[simp] theorem setWait_vram (w : Option Reg) : (setWait s w).vram = s.vram := rfl
@[simp] theorem setWait_draws (w : Option Reg) : (setWait s w).draws = s.draws := rfl

@[simp] theorem setVram_v (g : Vram) : (setVram s g).v = s.v := rfl
@[simp] theorem setVram_i (g : Vram) : (setVram s g).i = s.i := rfl
@[simp] theorem setVram_pc (g : Vram) : (setVram s g).pc = s.pc := rfl
@[simp] theorem setVram_sp (g : Vram) : (setVram s g).sp = s.sp := rfl
@[simp] theorem setVram_dt (g : Vram) : (setVram s g).dt = s.dt := rfl
@[simp] theorem setVram_st (g : Vram) : (setVram s g).st = s.st := rfl
@[simp] theorem setVram_key (g : Vram) : (setVram s g).key = s.key := rfl
@[simp] theorem setVram_wait (g : Vram) : (setVram s g).wait = s.wait := rfl
@[simp] theorem setVram_mem (g : Vram) : (setVram s g).mem = s.mem := rfl
@[simp] theorem setVram_vram (g : Vram) : (setVram s g).vram = g := rfl
@[simp] theorem setVram_draws (g : Vram) : (setVram s g).draws = s.draws := rfl

@[simp] theorem rndDrawn_v : (rndDrawn s).v = s.v := rfl
@[simp] theorem rndDrawn_i : (rndDrawn s).i = s.i := rfl
@[simp] theorem rndDrawn_pc : (rndDrawn s).pc = s.pc := rfl
@[simp] theorem rndDrawn_sp : (rndDrawn s).sp = s.sp := rfl
@[simp] theorem rndDrawn_dt : (rndDrawn s).dt = s.dt := rfl
@[simp] theorem rndDrawn_st : (rndDrawn s).st = s.st := rfl
@[simp] theorem rndDrawn_key : (rndDrawn s).key = s.key := rfl
@[simp] theorem rndDrawn_wait : (rndDrawn s).wait = s.wait := rfl
@[simp] theorem rndDrawn_mem : (rndDrawn s).mem = s.mem := rfl
@[simp] theorem rndDrawn_vram : (rndDrawn s).vram = s.vram := rfl
@[simp] theorem rndDrawn_draws : (rndDrawn s).draws = s.draws + 1 := rfl

@[simp] theorem memWrite_v (a : Nat) (u : Byte) : (memWrite s a u).v = s.v := rfl
@[simp] theorem memWrite_i (a : Nat) (u : Byte) : (memWrite s a u).i = s.i := rfl
@[simp] theorem memWrite_pc (a : Nat) (u : Byte) : (memWrite s a u).pc = s.pc := rfl
@[simp] theorem memWrite_sp (a : Nat) (u : Byte) : (memWrite s a u).sp = s.sp := rfl
@[simp] theorem memWrite_dt (a : Nat) (u : Byte) : (memWrite s a u).dt = s.dt := rfl
@[simp] theorem memWrite_st (a : Nat) (u : Byte) : (memWrite s a u).st = s.st := rfl
@[simp] theorem memWrite_key (a : Nat) (u : Byte) : (memWrite s a u).key = s.key := rfl
@[simp] theorem memWrite_wait (a : Nat) (u : Byte) : (memWrite s a u).wait = s.wait := rfl
@[simp] theorem memWrite_mem (a : Nat) (u : Byte) : (memWrite s a u).mem = cellWrite s.mem (a % Config.memSize) u := rfl
@[simp] theorem memWrite_vram (a : Nat) (u : Byte) : (memWrite s a u).vram = s.vram := rfl
@[simp] theorem memWrite_draws (a : Nat) (u : Byte) : (memWrite s a u).draws = s.draws := rfl

end Sys2Proof.Machine
end

