-- ==== Sys2Proof/Laws/Registers.lean ====
section
/-! SUPPORT. Reading a register, a key or memory through every update (R9, R20, R27). -/

namespace Sys2Proof.Machine

variable (s : State)

/-- A written register reads as written, every other as before. -/
theorem getV_setV (x y : Reg) (u : Byte) : getV (setV s x u) y = if y = x then u else getV s y := by
  unfold getV
  rw [show (setV s x u).v[y.toNat]'y.isLt = (s.v.set x.toNat u x.isLt)[y.toNat]'y.isLt from rfl, Vector.getElem_set]
  exact if_congr ⟨fun h => BitVec.eq_of_toNat_eq h.symm, fun h => h ▸ rfl⟩ rfl rfl

@[simp] theorem getV_setV_self (x : Reg) (u : Byte) : getV (setV s x u) x = u := by simp [getV_setV]

theorem getV_setV_of_ne {x y : Reg} (u : Byte) (h : y ≠ x) : getV (setV s x u) y = getV s y := by
  simp [getV_setV, h]

/-- A written key flag reads as written, every other as before. -/
theorem getKey_setKey (k j : Nibble) (d : Bool) : getKey (setKey s k d) j = if j = k then d else getKey s j := by
  unfold getKey
  rw [show (setKey s k d).key[j.toNat]'j.isLt = (s.key.set k.toNat d k.isLt)[j.toNat]'j.isLt from rfl,
    Vector.getElem_set]
  exact if_congr ⟨fun h => BitVec.eq_of_toNat_eq h.symm, fun h => h ▸ rfl⟩ rfl rfl

@[simp] theorem getV_setI (u : Word) (r : Reg) : getV (setI s u) r = getV s r := rfl
@[simp] theorem getV_setPc (u : Word) (r : Reg) : getV (setPc s u) r = getV s r := rfl
@[simp] theorem getV_setSp (u : Byte) (r : Reg) : getV (setSp s u) r = getV s r := rfl
@[simp] theorem getV_setDt (u : Byte) (r : Reg) : getV (setDt s u) r = getV s r := rfl
@[simp] theorem getV_setSt (u : Byte) (r : Reg) : getV (setSt s u) r = getV s r := rfl
@[simp] theorem getV_setKey (k : Nibble) (d : Bool) (r : Reg) : getV (setKey s k d) r = getV s r := rfl
@[simp] theorem getV_setWait (w : Option Reg) (r : Reg) : getV (setWait s w) r = getV s r := rfl
@[simp] theorem getV_setVram (g : Vram) (r : Reg) : getV (setVram s g) r = getV s r := rfl
@[simp] theorem getV_rndDrawn (r : Reg) : getV (rndDrawn s) r = getV s r := rfl
@[simp] theorem getV_memWrite (a : Nat) (u : Byte) (r : Reg) : getV (memWrite s a u) r = getV s r := rfl
@[simp] theorem getV_advance (r : Reg) : getV (advance s) r = getV s r := rfl
@[simp] theorem getV_skipIf (b : Bool) (r : Reg) : getV (skipIf s b) r = getV s r := rfl

@[simp] theorem memRead_setV (x : Reg) (u : Byte) (a : Nat) : memRead (setV s x u) a = memRead s a := rfl
@[simp] theorem memRead_setI (u : Word) (a : Nat) : memRead (setI s u) a = memRead s a := rfl
@[simp] theorem memRead_setPc (u : Word) (a : Nat) : memRead (setPc s u) a = memRead s a := rfl
@[simp] theorem memRead_setSp (u : Byte) (a : Nat) : memRead (setSp s u) a = memRead s a := rfl
@[simp] theorem memRead_setDt (u : Byte) (a : Nat) : memRead (setDt s u) a = memRead s a := rfl
@[simp] theorem memRead_setSt (u : Byte) (a : Nat) : memRead (setSt s u) a = memRead s a := rfl
@[simp] theorem memRead_setKey (k : Nibble) (d : Bool) (a : Nat) : memRead (setKey s k d) a = memRead s a := rfl
@[simp] theorem memRead_setWait (w : Option Reg) (a : Nat) : memRead (setWait s w) a = memRead s a := rfl
@[simp] theorem memRead_setVram (g : Vram) (a : Nat) : memRead (setVram s g) a = memRead s a := rfl
@[simp] theorem memRead_rndDrawn (a : Nat) : memRead (rndDrawn s) a = memRead s a := rfl
@[simp] theorem memRead_advance (a : Nat) : memRead (advance s) a = memRead s a := rfl
@[simp] theorem memRead_skipIf (b : Bool) (a : Nat) : memRead (skipIf s b) a = memRead s a := rfl

/-- The implicit advance, field by field: only PC. -/
theorem advance_eq : advance s = { s with pc := s.pc + 2 } := rfl

/-- A skip, field by field: only PC. -/
theorem skipIf_eq (b : Bool) : skipIf s b = { s with pc := if b then s.pc + 4 else s.pc + 2 } := rfl

/-- VF after a result and then a flag is the flag, with x = 15 too (R146). -/
@[simp] theorem getV_resultThenFlag_regF (x : Reg) (u : Byte) (b : Bool) :
    getV (resultThenFlag s x u b) regF = flagByte b := by simp [resultThenFlag]

theorem getV_resultThenFlag (x r : Reg) (u : Byte) (b : Bool) :
    getV (resultThenFlag s x u b) r = if r = regF then flagByte b else if r = x then u else getV s r := by
  simp [resultThenFlag, getV_setV]

/-- Vx after a flag and then a result is the result, with x = 15 too (R146). -/
@[simp] theorem getV_flagThenResult_self (x : Reg) (b : Bool) (u : Byte) :
    getV (flagThenResult s x b u) x = u := by simp [flagThenResult]

theorem getV_flagThenResult (x r : Reg) (b : Bool) (u : Byte) :
    getV (flagThenResult s x b u) r = if r = x then u else if r = regF then flagByte b else getV s r := by
  simp [flagThenResult, getV_setV]

/-- A result and a flag touch nothing but V. -/
theorem resultThenFlag_eq (x : Reg) (u : Byte) (b : Bool) :
    resultThenFlag s x u b = { s with v := (resultThenFlag s x u b).v } := rfl

/-- A flag and a result touch nothing but V. -/
theorem flagThenResult_eq (x : Reg) (b : Bool) (u : Byte) :
    flagThenResult s x b u = { s with v := (flagThenResult s x b u).v } := rfl

/-! ### The fields the composed updates leave -/

@[simp] theorem advance_v : (advance s).v = s.v := rfl
@[simp] theorem advance_i : (advance s).i = s.i := rfl
@[simp] theorem advance_sp : (advance s).sp = s.sp := rfl
@[simp] theorem advance_dt : (advance s).dt = s.dt := rfl
@[simp] theorem advance_st : (advance s).st = s.st := rfl
@[simp] theorem advance_key : (advance s).key = s.key := rfl
@[simp] theorem advance_wait : (advance s).wait = s.wait := rfl
@[simp] theorem advance_mem : (advance s).mem = s.mem := rfl
@[simp] theorem advance_vram : (advance s).vram = s.vram := rfl
@[simp] theorem advance_draws : (advance s).draws = s.draws := rfl

@[simp] theorem skipIf_v (b : Bool) : (skipIf s b).v = s.v := rfl
@[simp] theorem skipIf_i (b : Bool) : (skipIf s b).i = s.i := rfl
@[simp] theorem skipIf_sp (b : Bool) : (skipIf s b).sp = s.sp := rfl
@[simp] theorem skipIf_dt (b : Bool) : (skipIf s b).dt = s.dt := rfl
@[simp] theorem skipIf_st (b : Bool) : (skipIf s b).st = s.st := rfl
@[simp] theorem skipIf_key (b : Bool) : (skipIf s b).key = s.key := rfl
@[simp] theorem skipIf_wait (b : Bool) : (skipIf s b).wait = s.wait := rfl
@[simp] theorem skipIf_mem (b : Bool) : (skipIf s b).mem = s.mem := rfl
@[simp] theorem skipIf_vram (b : Bool) : (skipIf s b).vram = s.vram := rfl
@[simp] theorem skipIf_draws (b : Bool) : (skipIf s b).draws = s.draws := rfl

@[simp] theorem resultThenFlag_i (x : Reg) (u : Byte) (b : Bool) : (resultThenFlag s x u b).i = s.i := rfl
@[simp] theorem resultThenFlag_pc (x : Reg) (u : Byte) (b : Bool) : (resultThenFlag s x u b).pc = s.pc := rfl
@[simp] theorem resultThenFlag_sp (x : Reg) (u : Byte) (b : Bool) : (resultThenFlag s x u b).sp = s.sp := rfl
@[simp] theorem resultThenFlag_dt (x : Reg) (u : Byte) (b : Bool) : (resultThenFlag s x u b).dt = s.dt := rfl
@[simp] theorem resultThenFlag_st (x : Reg) (u : Byte) (b : Bool) : (resultThenFlag s x u b).st = s.st := rfl
@[simp] theorem resultThenFlag_key (x : Reg) (u : Byte) (b : Bool) : (resultThenFlag s x u b).key = s.key := rfl
@[simp] theorem resultThenFlag_wait (x : Reg) (u : Byte) (b : Bool) : (resultThenFlag s x u b).wait = s.wait := rfl
@[simp] theorem resultThenFlag_mem (x : Reg) (u : Byte) (b : Bool) : (resultThenFlag s x u b).mem = s.mem := rfl
@[simp] theorem resultThenFlag_vram (x : Reg) (u : Byte) (b : Bool) : (resultThenFlag s x u b).vram = s.vram := rfl
@[simp] theorem resultThenFlag_draws (x : Reg) (u : Byte) (b : Bool) : (resultThenFlag s x u b).draws = s.draws := rfl

@[simp] theorem flagThenResult_i (x : Reg) (b : Bool) (u : Byte) : (flagThenResult s x b u).i = s.i := rfl
@[simp] theorem flagThenResult_pc (x : Reg) (b : Bool) (u : Byte) : (flagThenResult s x b u).pc = s.pc := rfl
@[simp] theorem flagThenResult_sp (x : Reg) (b : Bool) (u : Byte) : (flagThenResult s x b u).sp = s.sp := rfl
@[simp] theorem flagThenResult_dt (x : Reg) (b : Bool) (u : Byte) : (flagThenResult s x b u).dt = s.dt := rfl
@[simp] theorem flagThenResult_st (x : Reg) (b : Bool) (u : Byte) : (flagThenResult s x b u).st = s.st := rfl
@[simp] theorem flagThenResult_key (x : Reg) (b : Bool) (u : Byte) : (flagThenResult s x b u).key = s.key := rfl
@[simp] theorem flagThenResult_wait (x : Reg) (b : Bool) (u : Byte) : (flagThenResult s x b u).wait = s.wait := rfl
@[simp] theorem flagThenResult_mem (x : Reg) (b : Bool) (u : Byte) : (flagThenResult s x b u).mem = s.mem := rfl
@[simp] theorem flagThenResult_vram (x : Reg) (b : Bool) (u : Byte) : (flagThenResult s x b u).vram = s.vram := rfl
@[simp] theorem flagThenResult_draws (x : Reg) (b : Bool) (u : Byte) : (flagThenResult s x b u).draws = s.draws := rfl

end Sys2Proof.Machine
end

