-- ==== Sys2Proof/Laws/FrameBuffer.lean ====
section
/-! SUPPORT. The Frame Buffer pixel by pixel (R180 to R185 of spec/43_display.md). -/

namespace Sys2Proof.Machine

/-- A replaced pixel reads as replaced, every other as before. -/
theorem pixel_setPixel (g : Vram) (row q : Fin 32) (col c : Fin 64) (b : Bool) :
    pixel (setPixel g row col b) q c = if q = row ∧ c = col then b else pixel g q c := by
  have hv : ∀ {a b : Fin 32}, a.val = b.val ↔ a = b := Fin.ext_iff.symm
  have hc : ∀ {a b : Fin 64}, a.val = b.val ↔ a = b := Fin.ext_iff.symm
  simp only [pixel, setPixel, Fin.getElem_fin, Vector.getElem_set]
  by_cases h : q = row
  · subst h
    simp only [if_true, Vector.getElem_set, true_and, hc, eq_comm (a := col)]
  · have : ¬ row.val = q.val := fun e => h (hv.mp e.symm)
    simp [this, h]

/-- Two buffers with the same pixels are the same data. -/
theorem vram_ext {g h : Vram} (e : ∀ q c, pixel g q c = pixel h q c) : g = h := by
  refine Vector.ext fun q hq => Vector.ext fun c hc => ?_
  exact e ⟨q, hq⟩ ⟨c, hc⟩

@[simp] theorem pixel_clearVram (q : Fin 32) (c : Fin 64) : pixel clearVram q c = false := by
  simp [pixel, clearVram]

/-- The eight columns of a byte are distinct (R182: 8 < 64). -/
theorem drawCol_inj {x : Byte} {b e : Nat} (hb : b < 8) (he : e < 8) (h : drawCol x b = drawCol x e) : b = e := by
  have := congrArg Fin.val h
  simp only [drawCol, Fin.val_ofNat] at this
  omega

/-- One bit drawn, pixel by pixel. -/
theorem pixel_drawBit (x : Byte) (row q : Fin 32) (d : Byte) (gc : Vram × Bool) (b : Nat) (c : Fin 64) :
    pixel (drawBit x row d gc b).1 q c =
      if q = row ∧ c = drawCol x b then pixel gc.1 q c ^^ d.getLsbD (7 - b) else pixel gc.1 q c := by
  simp only [drawBit, pixel_setPixel]
  split
  · rename_i h; rw [h.1, h.2]
  · rfl

/-- The first `k` bits of DrawByte, as a list fold: their pixels and their collisions. -/
theorem drawBits_spec (x : Byte) (row : Fin 32) (d : Byte) (g : Vram) (k : Nat) (hk : k ≤ 8) :
    (∀ q c, pixel ((List.range k).foldl (drawBit x row d) (g, false)).1 q c =
      (pixel g q c ^^ decide (q = row ∧ ∃ b < k, c = drawCol x b ∧ d.getLsbD (7 - b) = true))) ∧
    (((List.range k).foldl (drawBit x row d) (g, false)).2 = true ↔
      ∃ b < k, d.getLsbD (7 - b) = true ∧ pixel g row (drawCol x b) = true) := by
  induction k with
  | zero => simp
  | succ k ih =>
    obtain ⟨ihp, ihc⟩ := ih (by omega)
    rw [List.range_succ, List.foldl_append]
    simp only [List.foldl_cons, List.foldl_nil]
    generalize hG : (List.range k).foldl (drawBit x row d) (g, false) = G at ihp ihc
    have fresh : pixel G.1 row (drawCol x k) = pixel g row (drawCol x k) := by
      rw [ihp, decide_eq_false, Bool.xor_false]
      rintro ⟨-, b, hb, e, -⟩
      have := drawCol_inj (by omega) (by omega) e
      omega
    refine ⟨fun q c => ?_, ?_⟩
    · rw [pixel_drawBit, ihp]
      by_cases h : q = row ∧ c = drawCol x k
      · obtain ⟨rfl, rfl⟩ := h
        rw [if_pos ⟨rfl, rfl⟩, ← ihp, fresh]
        congr 1
        rw [Bool.eq_iff_iff, decide_eq_true_iff]
        constructor
        · intro hd; exact ⟨rfl, k, by omega, rfl, hd⟩
        · rintro ⟨-, b, hb, e, hd⟩
          rwa [drawCol_inj (by omega) (by omega) e]
      · rw [if_neg h]
        congr 1
        refine decide_eq_decide.mpr (and_congr_right fun hq => ?_)
        constructor
        · rintro ⟨b, hb, r⟩; exact ⟨b, by omega, r⟩
        · rintro ⟨b, hb, e, hd⟩
          rcases Nat.lt_succ_iff_lt_or_eq.mp hb with hb | rfl
          · exact ⟨b, hb, e, hd⟩
          · exact absurd ⟨hq, e⟩ h
    · simp only [drawBit, fresh, Bool.or_eq_true, Bool.and_eq_true, ihc]
      constructor
      · rintro (⟨b, hb, r⟩ | ⟨h1, h2⟩)
        · exact ⟨b, by omega, r⟩
        · exact ⟨k, by omega, h2, h1⟩
      · rintro ⟨b, hb, h1, h2⟩
        rcases Nat.lt_succ_iff_lt_or_eq.mp hb with hb | rfl
        · exact .inl ⟨b, hb, h1, h2⟩
        · exact .inr ⟨h2, h1⟩

/-- Drawing a sprite touches nothing but the buffer it answers: `k + 1` rows are `k` rows and one DrawByte (R185). -/
theorem drawRows_succ (s : State) (vx vy : Byte) (k : Nat) :
    drawRows s vx vy (k + 1) =
      ((drawByte vx (spriteRow vy k) (memRead s (indexAddr s k)) (drawRows s vx vy k).1).1,
       (drawRows s vx vy k).2 || (drawByte vx (spriteRow vy k) (memRead s (indexAddr s k)) (drawRows s vx vy k).1).2) :=
  rfl

/-- The frame rows of a sprite of at most 32 rows are distinct (R185). -/
theorem spriteRow_inj {vy : Byte} {r q : Nat} (hr : r < 32) (hq : q < 32) (h : spriteRow vy r = spriteRow vy q) :
    r = q := by
  have := congrArg Fin.val h
  simp only [spriteRow, Fin.val_ofNat] at this
  omega

end Sys2Proof.Machine
end

