-- ==== Sys2Proof/Laws/Memory.lean ====
section
/-! SUPPORT. Memory as a list of cells: a read after a write, the canonical form kept by every operation, and equal
readings are equal data. -/

namespace Sys2Proof.Machine

theorem mem_consCell {a : Nat} {u : Byte} {m : Memory} {c : Host.Cell} (h : c ∈ consCell a u m) :
    (c = (a, u) ∧ u ≠ unlistedByte a) ∨ c ∈ m := by
  unfold consCell at h
  split at h
  · exact .inr h
  · rcases List.mem_cons.mp h with rfl | h
    · exact .inl ⟨rfl, ‹_›⟩
    · exact .inr h

/-- Every cell after a write is the written one or an old one at another address, if the addresses rise. -/
theorem mem_cellWrite {m : Memory} {a : Nat} {u : Byte} {c : Host.Cell} (hp : m.Pairwise (fun c d => c.1 < d.1))
    (h : c ∈ cellWrite m a u) : (c = (a, u) ∧ u ≠ unlistedByte a) ∨ (c ∈ m ∧ c.1 ≠ a) := by
  induction m with
  | nil => exact (mem_consCell h).imp id (fun h => by simp at h)
  | cons d rest ih =>
    obtain ⟨b, w⟩ := d
    obtain ⟨hb, hp⟩ := List.pairwise_cons.mp hp
    simp only [cellWrite] at h
    split at h
    · refine (mem_consCell h).imp id fun h => ⟨h, ?_⟩
      rcases List.mem_cons.mp h with rfl | h
      · show b ≠ a; omega
      · have := hb c h; simp at this; omega
    · split at h
      · subst a
        refine (mem_consCell h).imp id fun h => ⟨List.mem_cons_of_mem _ h, ?_⟩
        have := hb c h; simp at this; omega
      · rcases List.mem_cons.mp h with rfl | h
        · refine .inr ⟨List.mem_cons_self, ?_⟩; show b ≠ a; omega
        · exact (ih hp h).imp id fun h => ⟨List.mem_cons_of_mem _ h.1, h.2⟩

theorem pairwise_consCell {m : Memory} {a : Nat} {u : Byte} (hp : m.Pairwise (fun c d => c.1 < d.1))
    (h : ∀ c ∈ m, a < c.1) : (consCell a u m).Pairwise (fun c d => c.1 < d.1) := by
  unfold consCell
  split
  · exact hp
  · exact List.pairwise_cons.mpr ⟨h, hp⟩

theorem pairwise_cellWrite {m : Memory} {a : Nat} {u : Byte} (hp : m.Pairwise (fun c d => c.1 < d.1)) :
    (cellWrite m a u).Pairwise (fun c d => c.1 < d.1) := by
  induction m with
  | nil => exact pairwise_consCell List.Pairwise.nil (by simp)
  | cons d rest ih =>
    obtain ⟨b, w⟩ := d
    obtain ⟨hb, hr⟩ := List.pairwise_cons.mp hp
    simp only [cellWrite]
    split
    · refine pairwise_consCell hp fun c hc => ?_
      rcases List.mem_cons.mp hc with rfl | hc
      · assumption
      · have := hb c hc; simp at this; omega
    · split
      · subst a; exact pairwise_consCell hr fun c hc => by have := hb c hc; simpa using this
      · refine List.pairwise_cons.mpr ⟨fun c hc => ?_, ih hr⟩
        rcases mem_cellWrite hr hc with ⟨rfl, _⟩ | ⟨hc, _⟩
        · show b < a; omega
        · exact hb c hc

/-- A write keeps the canonical form. -/
theorem wf_cellWrite {m : Memory} {a : Nat} {u : Byte} (h : m.wf) (ha : a < Config.memSize) :
    Memory.wf (cellWrite m a u) := by
  refine ⟨pairwise_cellWrite h.1, fun c hc => ?_⟩
  rcases mem_cellWrite h.1 hc with ⟨rfl, hu⟩ | ⟨hc, _⟩
  · exact ⟨ha, hu⟩
  · exact h.2 c hc

/-- An address below every listed one reads as unlisted. -/
theorem cellRead_of_lt {m : Memory} {a : Nat} (h : ∀ c ∈ m, a < c.1) : cellRead m a = unlistedByte a := by
  induction m with
  | nil => rfl
  | cons d rest ih =>
    have := h d List.mem_cons_self
    simp only [cellRead, if_neg (show ¬ a = d.1 by omega)]
    exact ih fun c hc => h c (List.mem_cons_of_mem _ hc)

theorem cellRead_consCell_self {m : Memory} {a : Nat} {u : Byte} (h : ∀ c ∈ m, a < c.1) :
    cellRead (consCell a u m) a = u := by
  unfold consCell
  split
  · rw [cellRead_of_lt h]; exact (by assumption : u = _).symm
  · simp [cellRead]

theorem cellRead_consCell_of_ne {m : Memory} {a b : Nat} {u : Byte} (h : b ≠ a) :
    cellRead (consCell a u m) b = cellRead m b := by
  unfold consCell
  split
  · rfl
  · simp [cellRead, h]

/-- The written address reads as written. -/
theorem cellRead_cellWrite_self {m : Memory} {a : Nat} {u : Byte} (hp : m.Pairwise (fun c d => c.1 < d.1)) :
    cellRead (cellWrite m a u) a = u := by
  induction m with
  | nil => exact cellRead_consCell_self (by simp)
  | cons d rest ih =>
    obtain ⟨b, w⟩ := d
    obtain ⟨hb, hr⟩ := List.pairwise_cons.mp hp
    simp only [cellWrite]
    split
    · refine cellRead_consCell_self fun c hc => ?_
      rcases List.mem_cons.mp hc with rfl | hc
      · assumption
      · have := hb c hc; simp at this; omega
    · split
      · subst a; exact cellRead_consCell_self fun c hc => by have := hb c hc; simpa using this
      · rw [cellRead, if_neg (by assumption)]; exact ih hr

/-- Every other address reads as before, in any list. -/
theorem cellRead_cellWrite_of_ne {m : Memory} {a b : Nat} {u : Byte} (h : b ≠ a) :
    cellRead (cellWrite m a u) b = cellRead m b := by
  induction m with
  | nil => exact cellRead_consCell_of_ne h
  | cons d rest ih =>
    obtain ⟨e, w⟩ := d
    simp only [cellWrite]
    split
    · exact cellRead_consCell_of_ne h
    · split
      · subst a; rw [cellRead_consCell_of_ne h]; simp [cellRead, h]
      · simp only [cellRead, ih]

/-! ### The same of MemRead and MemWrite -/

variable (s : State)

theorem wf_memWrite {s : State} (a : Nat) (u : Byte) (h : s.mem.wf) : (memWrite s a u).mem.wf :=
  wf_cellWrite h (Nat.mod_lt _ (by decide))

theorem memRead_memWrite_self {s : State} {a b : Nat} (u : Byte) (hw : s.mem.wf)
    (h : b % Config.memSize = a % Config.memSize) : memRead (memWrite s a u) b = u := by
  unfold memRead; rw [memWrite_mem, h]; exact cellRead_cellWrite_self hw.1

theorem memRead_memWrite_of_ne {a b : Nat} (u : Byte) (h : b % Config.memSize ≠ a % Config.memSize) :
    memRead (memWrite s a u) b = memRead s b := by
  unfold memRead; rw [memWrite_mem]; exact cellRead_cellWrite_of_ne h

/-- Two addresses that agree modulo 4096 read the same byte. -/
theorem memRead_congr {a b : Nat} (h : a % Config.memSize = b % Config.memSize) : memRead s a = memRead s b := by
  unfold memRead; rw [h]

/-- LOAD's copy keeps the canonical form. -/
theorem wf_memWriteAll (bytes : List Byte) : ∀ (s : State) (a : Nat), s.mem.wf → (memWriteAll s a bytes).mem.wf := by
  induction bytes with
  | nil => intro s a h; exact h
  | cons u rest ih => intro s a h; exact ih _ _ (wf_memWrite a u h)

/-- LOAD's copy changes nothing but memory. -/
theorem memWriteAll_eq (bytes : List Byte) :
    ∀ (s : State) (a : Nat), memWriteAll s a bytes = { s with mem := (memWriteAll s a bytes).mem } := by
  induction bytes with
  | nil => intro s a; rfl
  | cons u rest ih => intro s a; rw [memWriteAll, ih]; rfl

@[simp] theorem memWriteAll_v (a : Nat) (bytes : List Byte) : (memWriteAll s a bytes).v = s.v := by rw [memWriteAll_eq]
@[simp] theorem memWriteAll_i (a : Nat) (bytes : List Byte) : (memWriteAll s a bytes).i = s.i := by rw [memWriteAll_eq]
@[simp] theorem memWriteAll_pc (a : Nat) (bytes : List Byte) : (memWriteAll s a bytes).pc = s.pc := by rw [memWriteAll_eq]
@[simp] theorem memWriteAll_sp (a : Nat) (bytes : List Byte) : (memWriteAll s a bytes).sp = s.sp := by rw [memWriteAll_eq]
@[simp] theorem memWriteAll_dt (a : Nat) (bytes : List Byte) : (memWriteAll s a bytes).dt = s.dt := by rw [memWriteAll_eq]
@[simp] theorem memWriteAll_st (a : Nat) (bytes : List Byte) : (memWriteAll s a bytes).st = s.st := by rw [memWriteAll_eq]
@[simp] theorem memWriteAll_key (a : Nat) (bytes : List Byte) : (memWriteAll s a bytes).key = s.key := by rw [memWriteAll_eq]
@[simp] theorem memWriteAll_wait (a : Nat) (bytes : List Byte) : (memWriteAll s a bytes).wait = s.wait := by rw [memWriteAll_eq]
@[simp] theorem memWriteAll_vram (a : Nat) (bytes : List Byte) : (memWriteAll s a bytes).vram = s.vram := by rw [memWriteAll_eq]
@[simp] theorem memWriteAll_draws (a : Nat) (bytes : List Byte) : (memWriteAll s a bytes).draws = s.draws := by rw [memWriteAll_eq]

end Sys2Proof.Machine
end

