-- ==== Sys2Proof/Laws/PerInstr.lean ====
section
/-! SUPPORT. One lemma per instruction, about the instruction as it is written: its encoding selects its own row of
the opcode table, and that row's fields read back from the encoding are its operands (R83, R84). -/

namespace Sys2Proof.Laws.RowMatch

/-- The row of the opcode table an instruction stands on (R84). -/
def rowOf : Instr → OpRow
  | .cls => rowFixed 0x00E0 .cls
  | .ret => rowFixed 0x00EE .ret
  | .jp _ => rowNnn 0x1000 .jp
  | .call _ => rowNnn 0x2000 .call
  | .seImm _ _ => rowXkk 0x3000 .seImm
  | .sneImm _ _ => rowXkk 0x4000 .sneImm
  | .seReg _ _ => rowXys 0x5000 .seReg
  | .ldImm _ _ => rowXkk 0x6000 .ldImm
  | .addImm _ _ => rowXkk 0x7000 .addImm
  | .ldReg _ _ => rowXys 0x8000 .ldReg
  | .orReg _ _ => rowXys 0x8001 .orReg
  | .andReg _ _ => rowXys 0x8002 .andReg
  | .xorReg _ _ => rowXys 0x8003 .xorReg
  | .addReg _ _ => rowXys 0x8004 .addReg
  | .sub _ _ => rowXys 0x8005 .sub
  | .shr _ _ => rowXys 0x8006 .shr
  | .subn _ _ => rowXys 0x8007 .subn
  | .shl _ _ => rowXys 0x800E .shl
  | .sneReg _ _ => rowXys 0x9000 .sneReg
  | .ldI _ => rowNnn 0xA000 .ldI
  | .jpV0 _ => rowNnn 0xB000 .jpV0
  | .rnd _ _ => rowXkk 0xC000 .rnd
  | .drw _ _ _ => rowXyn 0xD000 .drw
  | .skp _ => rowXss 0xE09E .skp
  | .sknp _ => rowXss 0xE0A1 .sknp
  | .ldVxDt _ => rowXss 0xF007 .ldVxDt
  | .ldVxK _ => rowXss 0xF00A .ldVxK
  | .ldDtVx _ => rowXss 0xF015 .ldDtVx
  | .ldStVx _ => rowXss 0xF018 .ldStVx
  | .addI _ => rowXss 0xF01E .addI
  | .ldF _ => rowXss 0xF029 .ldF
  | .ldB _ => rowXss 0xF033 .ldB
  | .ldMemVx _ => rowXss 0xF055 .ldMemVx
  | .ldVxMem _ => rowXss 0xF065 .ldVxMem

/-- The row is one of the table's, the instruction's encoding selects it, and its fields are the instruction's. -/
def Statement (i : Instr) : Prop :=
  rowOf i ∈ opcodeTable ∧ (rowOf i).selects (encode i) = true ∧ (rowOf i).build (encode i) = i

theorem cls : Statement (.cls) :=
  ⟨List.mem_iff_getElem.mpr ⟨0, by decide, rfl⟩,
    by decide, rfl⟩

theorem ret : Statement (.ret) :=
  ⟨List.mem_iff_getElem.mpr ⟨1, by decide, rfl⟩,
    by decide, rfl⟩

theorem jp (nnn : Addr) : Statement (.jp nnn) :=
  ⟨List.mem_iff_getElem.mpr ⟨2, by decide, rfl⟩,
    beq_iff_eq.mpr ((mask_nnn _ nnn).trans rfl), congrArg Instr.jp (fieldNnn_nnn _ nnn)⟩

theorem call (nnn : Addr) : Statement (.call nnn) :=
  ⟨List.mem_iff_getElem.mpr ⟨3, by decide, rfl⟩,
    beq_iff_eq.mpr ((mask_nnn _ nnn).trans rfl), congrArg Instr.call (fieldNnn_nnn _ nnn)⟩

theorem seImm (x : Reg) (kk : Byte) : Statement (.seImm x kk) :=
  ⟨List.mem_iff_getElem.mpr ⟨4, by decide, rfl⟩,
    beq_iff_eq.mpr ((mask_xkk _ x kk).trans rfl), congrArg₂ Instr.seImm (fieldX_xkk _ x kk) (fieldKk_xkk _ x kk)⟩

theorem sneImm (x : Reg) (kk : Byte) : Statement (.sneImm x kk) :=
  ⟨List.mem_iff_getElem.mpr ⟨5, by decide, rfl⟩,
    beq_iff_eq.mpr ((mask_xkk _ x kk).trans rfl), congrArg₂ Instr.sneImm (fieldX_xkk _ x kk) (fieldKk_xkk _ x kk)⟩

theorem seReg (x y : Reg) : Statement (.seReg x y) :=
  ⟨List.mem_iff_getElem.mpr ⟨6, by decide, rfl⟩,
    beq_iff_eq.mpr ((mask_xys _ x y _).trans rfl), congrArg₂ Instr.seReg (fieldX_xyn _ x y _) (fieldY_xyn _ x y _)⟩

theorem ldImm (x : Reg) (kk : Byte) : Statement (.ldImm x kk) :=
  ⟨List.mem_iff_getElem.mpr ⟨7, by decide, rfl⟩,
    beq_iff_eq.mpr ((mask_xkk _ x kk).trans rfl), congrArg₂ Instr.ldImm (fieldX_xkk _ x kk) (fieldKk_xkk _ x kk)⟩

theorem addImm (x : Reg) (kk : Byte) : Statement (.addImm x kk) :=
  ⟨List.mem_iff_getElem.mpr ⟨8, by decide, rfl⟩,
    beq_iff_eq.mpr ((mask_xkk _ x kk).trans rfl), congrArg₂ Instr.addImm (fieldX_xkk _ x kk) (fieldKk_xkk _ x kk)⟩

theorem ldReg (x y : Reg) : Statement (.ldReg x y) :=
  ⟨List.mem_iff_getElem.mpr ⟨9, by decide, rfl⟩,
    beq_iff_eq.mpr ((mask_xys _ x y _).trans rfl), congrArg₂ Instr.ldReg (fieldX_xyn _ x y _) (fieldY_xyn _ x y _)⟩

theorem orReg (x y : Reg) : Statement (.orReg x y) :=
  ⟨List.mem_iff_getElem.mpr ⟨10, by decide, rfl⟩,
    beq_iff_eq.mpr ((mask_xys _ x y _).trans rfl), congrArg₂ Instr.orReg (fieldX_xyn _ x y _) (fieldY_xyn _ x y _)⟩

theorem andReg (x y : Reg) : Statement (.andReg x y) :=
  ⟨List.mem_iff_getElem.mpr ⟨11, by decide, rfl⟩,
    beq_iff_eq.mpr ((mask_xys _ x y _).trans rfl), congrArg₂ Instr.andReg (fieldX_xyn _ x y _) (fieldY_xyn _ x y _)⟩

theorem xorReg (x y : Reg) : Statement (.xorReg x y) :=
  ⟨List.mem_iff_getElem.mpr ⟨12, by decide, rfl⟩,
    beq_iff_eq.mpr ((mask_xys _ x y _).trans rfl), congrArg₂ Instr.xorReg (fieldX_xyn _ x y _) (fieldY_xyn _ x y _)⟩

theorem addReg (x y : Reg) : Statement (.addReg x y) :=
  ⟨List.mem_iff_getElem.mpr ⟨13, by decide, rfl⟩,
    beq_iff_eq.mpr ((mask_xys _ x y _).trans rfl), congrArg₂ Instr.addReg (fieldX_xyn _ x y _) (fieldY_xyn _ x y _)⟩

theorem sub (x y : Reg) : Statement (.sub x y) :=
  ⟨List.mem_iff_getElem.mpr ⟨14, by decide, rfl⟩,
    beq_iff_eq.mpr ((mask_xys _ x y _).trans rfl), congrArg₂ Instr.sub (fieldX_xyn _ x y _) (fieldY_xyn _ x y _)⟩

theorem shr (x y : Reg) : Statement (.shr x y) :=
  ⟨List.mem_iff_getElem.mpr ⟨15, by decide, rfl⟩,
    beq_iff_eq.mpr ((mask_xys _ x y _).trans rfl), congrArg₂ Instr.shr (fieldX_xyn _ x y _) (fieldY_xyn _ x y _)⟩

theorem subn (x y : Reg) : Statement (.subn x y) :=
  ⟨List.mem_iff_getElem.mpr ⟨16, by decide, rfl⟩,
    beq_iff_eq.mpr ((mask_xys _ x y _).trans rfl), congrArg₂ Instr.subn (fieldX_xyn _ x y _) (fieldY_xyn _ x y _)⟩

theorem shl (x y : Reg) : Statement (.shl x y) :=
  ⟨List.mem_iff_getElem.mpr ⟨17, by decide, rfl⟩,
    beq_iff_eq.mpr ((mask_xys _ x y _).trans rfl), congrArg₂ Instr.shl (fieldX_xyn _ x y _) (fieldY_xyn _ x y _)⟩

theorem sneReg (x y : Reg) : Statement (.sneReg x y) :=
  ⟨List.mem_iff_getElem.mpr ⟨18, by decide, rfl⟩,
    beq_iff_eq.mpr ((mask_xys _ x y _).trans rfl), congrArg₂ Instr.sneReg (fieldX_xyn _ x y _) (fieldY_xyn _ x y _)⟩

theorem ldI (nnn : Addr) : Statement (.ldI nnn) :=
  ⟨List.mem_iff_getElem.mpr ⟨19, by decide, rfl⟩,
    beq_iff_eq.mpr ((mask_nnn _ nnn).trans rfl), congrArg Instr.ldI (fieldNnn_nnn _ nnn)⟩

theorem jpV0 (nnn : Addr) : Statement (.jpV0 nnn) :=
  ⟨List.mem_iff_getElem.mpr ⟨20, by decide, rfl⟩,
    beq_iff_eq.mpr ((mask_nnn _ nnn).trans rfl), congrArg Instr.jpV0 (fieldNnn_nnn _ nnn)⟩

theorem rnd (x : Reg) (kk : Byte) : Statement (.rnd x kk) :=
  ⟨List.mem_iff_getElem.mpr ⟨21, by decide, rfl⟩,
    beq_iff_eq.mpr ((mask_xkk _ x kk).trans rfl), congrArg₂ Instr.rnd (fieldX_xkk _ x kk) (fieldKk_xkk _ x kk)⟩

theorem drw (x y : Reg) (n : Nibble) : Statement (.drw x y n) :=
  ⟨List.mem_iff_getElem.mpr ⟨22, by decide, rfl⟩,
    beq_iff_eq.mpr ((mask_xyn _ x y n).trans rfl), by show Instr.drw _ _ _ = _; rw [encode, fieldX_xyn, fieldY_xyn, fieldN_xyn]⟩

theorem skp (x : Reg) : Statement (.skp x) :=
  ⟨List.mem_iff_getElem.mpr ⟨23, by decide, rfl⟩,
    beq_iff_eq.mpr ((mask_xss _ x _).trans rfl), congrArg Instr.skp (fieldX_xkk _ x _)⟩

theorem sknp (x : Reg) : Statement (.sknp x) :=
  ⟨List.mem_iff_getElem.mpr ⟨24, by decide, rfl⟩,
    beq_iff_eq.mpr ((mask_xss _ x _).trans rfl), congrArg Instr.sknp (fieldX_xkk _ x _)⟩

theorem ldVxDt (x : Reg) : Statement (.ldVxDt x) :=
  ⟨List.mem_iff_getElem.mpr ⟨25, by decide, rfl⟩,
    beq_iff_eq.mpr ((mask_xss _ x _).trans rfl), congrArg Instr.ldVxDt (fieldX_xkk _ x _)⟩

theorem ldVxK (x : Reg) : Statement (.ldVxK x) :=
  ⟨List.mem_iff_getElem.mpr ⟨26, by decide, rfl⟩,
    beq_iff_eq.mpr ((mask_xss _ x _).trans rfl), congrArg Instr.ldVxK (fieldX_xkk _ x _)⟩

theorem ldDtVx (x : Reg) : Statement (.ldDtVx x) :=
  ⟨List.mem_iff_getElem.mpr ⟨27, by decide, rfl⟩,
    beq_iff_eq.mpr ((mask_xss _ x _).trans rfl), congrArg Instr.ldDtVx (fieldX_xkk _ x _)⟩

theorem ldStVx (x : Reg) : Statement (.ldStVx x) :=
  ⟨List.mem_iff_getElem.mpr ⟨28, by decide, rfl⟩,
    beq_iff_eq.mpr ((mask_xss _ x _).trans rfl), congrArg Instr.ldStVx (fieldX_xkk _ x _)⟩

theorem addI (x : Reg) : Statement (.addI x) :=
  ⟨List.mem_iff_getElem.mpr ⟨29, by decide, rfl⟩,
    beq_iff_eq.mpr ((mask_xss _ x _).trans rfl), congrArg Instr.addI (fieldX_xkk _ x _)⟩

theorem ldF (x : Reg) : Statement (.ldF x) :=
  ⟨List.mem_iff_getElem.mpr ⟨30, by decide, rfl⟩,
    beq_iff_eq.mpr ((mask_xss _ x _).trans rfl), congrArg Instr.ldF (fieldX_xkk _ x _)⟩

theorem ldB (x : Reg) : Statement (.ldB x) :=
  ⟨List.mem_iff_getElem.mpr ⟨31, by decide, rfl⟩,
    beq_iff_eq.mpr ((mask_xss _ x _).trans rfl), congrArg Instr.ldB (fieldX_xkk _ x _)⟩

theorem ldMemVx (x : Reg) : Statement (.ldMemVx x) :=
  ⟨List.mem_iff_getElem.mpr ⟨32, by decide, rfl⟩,
    beq_iff_eq.mpr ((mask_xss _ x _).trans rfl), congrArg Instr.ldMemVx (fieldX_xkk _ x _)⟩

theorem ldVxMem (x : Reg) : Statement (.ldVxMem x) :=
  ⟨List.mem_iff_getElem.mpr ⟨33, by decide, rfl⟩,
    beq_iff_eq.mpr ((mask_xss _ x _).trans rfl), congrArg Instr.ldVxMem (fieldX_xkk _ x _)⟩

end Sys2Proof.Laws.RowMatch
end

