-- ==== Sys2Proof/Laws/Runs.lean ====
section
/-! SUPPORT. The runs of Fx55 and Fx65: the first `count` registers stored or loaded (R164, R165). -/

namespace Sys2Proof.Machine

variable (s : State)

/-- Storing registers changes nothing but memory. -/
theorem storeRegs_eq (k : Nat) : storeRegs s k = { s with mem := (storeRegs s k).mem } := by
  induction k with
  | zero => rfl
  | succ k ih => rw [storeRegs, ih]; rfl

/-- Loading registers changes nothing but V. -/
theorem loadRegs_eq (k : Nat) : loadRegs s k = { s with v := (loadRegs s k).v } := by
  induction k with
  | zero => rfl
  | succ k ih => rw [loadRegs, ih]; rfl

@[simp] theorem storeRegs_v (k : Nat) : (storeRegs s k).v = s.v := by rw [storeRegs_eq]
@[simp] theorem storeRegs_i (k : Nat) : (storeRegs s k).i = s.i := by rw [storeRegs_eq]
@[simp] theorem storeRegs_pc (k : Nat) : (storeRegs s k).pc = s.pc := by rw [storeRegs_eq]
@[simp] theorem storeRegs_sp (k : Nat) : (storeRegs s k).sp = s.sp := by rw [storeRegs_eq]
@[simp] theorem storeRegs_dt (k : Nat) : (storeRegs s k).dt = s.dt := by rw [storeRegs_eq]
@[simp] theorem storeRegs_st (k : Nat) : (storeRegs s k).st = s.st := by rw [storeRegs_eq]
@[simp] theorem storeRegs_key (k : Nat) : (storeRegs s k).key = s.key := by rw [storeRegs_eq]
@[simp] theorem storeRegs_wait (k : Nat) : (storeRegs s k).wait = s.wait := by rw [storeRegs_eq]
@[simp] theorem storeRegs_vram (k : Nat) : (storeRegs s k).vram = s.vram := by rw [storeRegs_eq]
@[simp] theorem storeRegs_draws (k : Nat) : (storeRegs s k).draws = s.draws := by rw [storeRegs_eq]

@[simp] theorem loadRegs_i (k : Nat) : (loadRegs s k).i = s.i := by rw [loadRegs_eq]
@[simp] theorem loadRegs_pc (k : Nat) : (loadRegs s k).pc = s.pc := by rw [loadRegs_eq]
@[simp] theorem loadRegs_sp (k : Nat) : (loadRegs s k).sp = s.sp := by rw [loadRegs_eq]
@[simp] theorem loadRegs_dt (k : Nat) : (loadRegs s k).dt = s.dt := by rw [loadRegs_eq]
@[simp] theorem loadRegs_st (k : Nat) : (loadRegs s k).st = s.st := by rw [loadRegs_eq]
@[simp] theorem loadRegs_key (k : Nat) : (loadRegs s k).key = s.key := by rw [loadRegs_eq]
@[simp] theorem loadRegs_wait (k : Nat) : (loadRegs s k).wait = s.wait := by rw [loadRegs_eq]
@[simp] theorem loadRegs_mem (k : Nat) : (loadRegs s k).mem = s.mem := by rw [loadRegs_eq]
@[simp] theorem loadRegs_vram (k : Nat) : (loadRegs s k).vram = s.vram := by rw [loadRegs_eq]
@[simp] theorem loadRegs_draws (k : Nat) : (loadRegs s k).draws = s.draws := by rw [loadRegs_eq]

@[simp] theorem getV_storeRegs (k : Nat) (r : Reg) : getV (storeRegs s k) r = getV s r := by
  unfold getV; simp only [storeRegs_v]

@[simp] theorem memRead_loadRegs (k a : Nat) : memRead (loadRegs s k) a = memRead s a := by
  unfold memRead; rw [loadRegs_mem]

theorem wf_storeRegs {s : State} (k : Nat) (h : s.mem.wf) : (storeRegs s k).mem.wf := by
  induction k with
  | zero => exact h
  | succ k ih => exact wf_memWrite _ _ ih

/-- A byte outside the stored run reads as before. -/
theorem memRead_storeRegs_of_ne {a k : Nat}
    (h : ∀ j < k, a % Config.memSize ≠ indexAddr s j % Config.memSize) : memRead (storeRegs s k) a = memRead s a := by
  induction k with
  | zero => rfl
  | succ k ih =>
    rw [storeRegs, memRead_memWrite_of_ne _ _ (h k (by omega))]
    exact ih fun j hj => h j (by omega)

/-- Byte `j` of the stored run is V[j]; the run's addresses are distinct because it is at most 16 long. -/
theorem memRead_storeRegs {s : State} {j k : Nat} (hw : s.mem.wf) (hj : j < k) (hk : k ≤ 16) :
    memRead (storeRegs s k) (indexAddr s j) = getV s (BitVec.ofNat 4 j) := by
  induction k with
  | zero => omega
  | succ k ih =>
    rw [storeRegs]
    rcases Nat.lt_succ_iff_lt_or_eq.mp hj with h | rfl
    · rw [memRead_memWrite_of_ne, ih h (by omega)]
      simp only [indexAddr, Config.memSize]
      omega
    · exact memRead_memWrite_self _ (wf_storeRegs _ hw) rfl

/-- The registers after a load of the first `k` of them. -/
theorem getV_loadRegs (k : Nat) (hk : k ≤ 16) (r : Reg) :
    getV (loadRegs s k) r = if r.toNat < k then memRead s (indexAddr s r.toNat) else getV s r := by
  induction k with
  | zero => simp [loadRegs]
  | succ k ih =>
    have hlt := r.isLt
    have key : r = BitVec.ofNat 4 k ↔ r.toNat = k := by
      constructor
      · rintro rfl; simp only [BitVec.toNat_ofNat]; omega
      · rintro rfl; simp
    rw [loadRegs, getV_setV, ih (by omega)]
    by_cases h : r.toNat = k
    · rw [if_pos (key.mpr h), if_pos (by omega), h]
    · rw [if_neg (fun e => h (key.mp e))]
      exact if_congr (by omega) rfl rfl

end Sys2Proof.Machine
end

