-- ==== Sys2Proof/Laws/Stack.lean ====
section
/-! SUPPORT. Push and Pop (R60, R61 of spec/20_memory.md). -/

namespace Sys2Proof.Machine

variable (s : State)

theorem push_eq (u : Byte) : push s u = { s with sp := s.sp - 1, mem := (push s u).mem } := rfl
theorem push_mem (u : Byte) : (push s u).mem = (memWrite s (stackBase + s.sp.toNat) u).mem := rfl
theorem pop_eq : (pop s).1 = { s with sp := s.sp + 1 } := rfl
theorem pop_byte : (pop s).2 = memRead s (stackBase + (s.sp + 1).toNat) := rfl

@[simp] theorem push_sp (u : Byte) : (push s u).sp = s.sp - 1 := rfl
@[simp] theorem push_v (u : Byte) : (push s u).v = s.v := rfl
@[simp] theorem push_i (u : Byte) : (push s u).i = s.i := rfl
@[simp] theorem push_pc (u : Byte) : (push s u).pc = s.pc := rfl
@[simp] theorem push_dt (u : Byte) : (push s u).dt = s.dt := rfl
@[simp] theorem push_st (u : Byte) : (push s u).st = s.st := rfl
@[simp] theorem push_key (u : Byte) : (push s u).key = s.key := rfl
@[simp] theorem push_wait (u : Byte) : (push s u).wait = s.wait := rfl
@[simp] theorem push_vram (u : Byte) : (push s u).vram = s.vram := rfl
@[simp] theorem push_draws (u : Byte) : (push s u).draws = s.draws := rfl

@[simp] theorem pop_sp : (pop s).1.sp = s.sp + 1 := rfl
@[simp] theorem pop_fst_v : ((pop s).1).v = s.v := rfl
@[simp] theorem pop_fst_i : ((pop s).1).i = s.i := rfl
@[simp] theorem pop_fst_pc : ((pop s).1).pc = s.pc := rfl
@[simp] theorem pop_fst_dt : ((pop s).1).dt = s.dt := rfl
@[simp] theorem pop_fst_st : ((pop s).1).st = s.st := rfl
@[simp] theorem pop_fst_key : ((pop s).1).key = s.key := rfl
@[simp] theorem pop_fst_wait : ((pop s).1).wait = s.wait := rfl
@[simp] theorem pop_fst_mem : ((pop s).1).mem = s.mem := rfl
@[simp] theorem pop_fst_vram : ((pop s).1).vram = s.vram := rfl
@[simp] theorem pop_fst_draws : ((pop s).1).draws = s.draws := rfl

@[simp] theorem getV_push (u : Byte) (r : Reg) : getV (push s u) r = getV s r := rfl
@[simp] theorem getV_pop (r : Reg) : getV (pop s).1 r = getV s r := rfl
@[simp] theorem memRead_pop (a : Nat) : memRead (pop s).1 a = memRead s a := rfl

theorem wf_push {s : State} (u : Byte) (h : s.mem.wf) : (push s u).mem.wf := wf_memWrite _ u h

/-- A pushed byte lies where SP pointed. -/
theorem memRead_push_self {s : State} (u : Byte) (h : s.mem.wf) :
    memRead (push s u) (stackBase + s.sp.toNat) = u := memRead_memWrite_self u h rfl

/-- A push leaves every other byte of memory. -/
theorem memRead_push_of_ne {a : Nat} (u : Byte)
    (h : a % Config.memSize ≠ (stackBase + s.sp.toNat) % Config.memSize) :
    memRead (push s u) a = memRead s a := memRead_memWrite_of_ne s u h

/-- Distinct stack pointers point at distinct bytes. -/
theorem stackAddr_ne {p q : Byte} (h : p ≠ q) :
    (stackBase + p.toNat) % Config.memSize ≠ (stackBase + q.toNat) % Config.memSize := by
  have := BitVec.toNat_ne.mp h
  have := p.isLt
  have := q.isLt
  simp only [stackBase, Config.memSize]
  omega

/-- A pop just after a push gives the byte back and the stack pointer too (R62). -/
theorem pop_push {s : State} (u : Byte) (h : s.mem.wf) :
    (pop (push s u)).2 = u ∧ (pop (push s u)).1.sp = s.sp := by
  have hsp : s.sp - 1 + 1 = s.sp := by bv_omega
  refine ⟨?_, hsp⟩
  rw [pop_byte, push_sp, hsp]
  exact memRead_push_self u h

end Sys2Proof.Machine
end

