-- ==== Sys2Proof/Laws/Step.lean ====
section
/-! SUPPORT. Everything one STEP can do, said once (R100 to R102 of spec/40_step_and_control_flow.md), and what storing a
word for the next fetch gives. -/

namespace Sys2Proof.Machine

variable {s t : State}

/-- If a step answers a next state, then either a key-wait is pending and nothing changed, or the bytes at PC decode to an
instruction and it was executed, or they decode to no instruction and PC advanced (R100, R102, R111). -/
theorem step_cases (h : step s = .next t) :
    (∃ r, s.wait = some r ∧ t = s) ∨
    (s.wait = none ∧ ∃ i, decodeNext s = .instr i ∧ exec i s = .next t) ∨
    (s.wait = none ∧ ∃ w, decodeNext s = .unmatched w ∧ t = advance s) := by
  unfold step cycle at h
  split at h
  · next r hr => cases h; exact .inl ⟨r, hr, rfl⟩
  · next hr =>
    refine .inr ?_
    unfold execDecoded at h
    split at h
    · next i hd => exact .inl ⟨hr, i, hd, h⟩
    · next w hd => cases h; exact .inr ⟨hr, w, hd, rfl⟩

/-- LOAD's state, one case for each answer (R238). -/
theorem loadEvent_cases (bytes : List Byte) (s : State) :
    (bytes.length ≤ 3584 ∧ loadEvent bytes s = memWriteAll s Config.progBase bytes) ∨
    (3584 < bytes.length ∧ loadEvent bytes s = s) := by
  unfold loadEvent loadFits
  by_cases h : bytes.length ≤ Config.maxLoad
  · exact .inl ⟨h, if_pos (decide_eq_true h)⟩
  · exact .inr ⟨by simpa [Config.maxLoad, Config.memSize, Config.progBase] using h, if_neg (by simpa using h)⟩

/-- KEY's state, one case for each of its outcomes (R212). -/
theorem keyEvent_cases (k : Nibble) (down : Bool) (s : State) :
    (∃ r, down = true ∧ s.wait = some r ∧
      keyEvent k down s = setWait (setV (setKey s k true) r (keyByte k)) none) ∨
    ((down = false ∨ s.wait = none) ∧ keyEvent k down s = setKey s k down) := by
  unfold keyEvent
  cases down <;> cases h : s.wait <;> simp

/-- The next fetch after a word has been placed reads that word, from memory in canonical form. -/
theorem fetch_placeWord (ir : Word) (h : s.mem.wf) : fetch (placeWord s ir) = wordBytes ir := by
  have hne : (s.pc.toNat + 1) % Config.memSize ≠ s.pc.toNat % Config.memSize := by
    simp only [Config.memSize]; omega
  have lo : memRead (placeWord s ir) (s.pc.toNat + 1) = (wordBytes ir).2 :=
    memRead_memWrite_self _ (wf_memWrite _ _ h) rfl
  have hi : memRead (placeWord s ir) s.pc.toNat = (wordBytes ir).1 :=
    (memRead_memWrite_of_ne (memWrite s s.pc.toNat (wordBytes ir).1) (wordBytes ir).2 hne.symm).trans
      (memRead_memWrite_self _ h rfl)
  exact Prod.ext hi lo

/-- Placing a word leaves no key-wait pending. -/
@[simp] theorem placeWord_wait (ir : Word) : (placeWord s ir).wait = none := rfl

/-- The step after a word has been placed runs what it decodes to. -/
theorem step_placeWord (ir : Word) (h : s.mem.wf) :
    step (placeWord s ir) = execDecoded (decodeWord ir) (placeWord s ir) := by
  have hd : decodeNext (placeWord s ir) = decodeWord ir := by
    unfold decodeNext
    rw [fetch_placeWord ir h]
    exact decode_wordBytes ir
  show execDecoded (decodeNext (placeWord s ir)) (placeWord s ir) = _
  rw [hd]

end Sys2Proof.Machine
end

