-- ==== Sys2Proof/Tests/Slice0.lean ====
section
/-! SUPPORT. Tests. Every expected result is copied from spec/95_test_vectors.md (the vector's name stands in the comment)
or worked out by hand from a rule's text; none is the model's own answer. -/

namespace Sys2Proof.Tests

open Sys2Proof Sys2Proof.Machine

/-! ### Helpers -/

/-- The reset state with some registers set. -/
def withRegs (rs : List (Reg × Byte)) : State := rs.foldl (fun s p => setV s p.1 p.2) State.reset

/-- The state a step answers, if it answers one. -/
def nextOf (a : Answer) : Option State :=
  match a with
  | .next t => some t
  | _ => none

/-- One STEP of the word placed at PC, and what is looked at afterwards. -/
def look {α : Type} (s : State) (w : Word) (f : State → α) : Option α :=
  (nextOf (step (s.withFetchWord 16 w.toNat))).map f

/-- One event other than STEP, and what is looked at afterwards. -/
def lookEvent {α : Type} (s : State) (e : Event) (f : State → α) : Option α := (nextOf (handle e s)).map f

/-- Consecutive bytes of memory. -/
def bytesAt (s : State) (a n : Nat) : List Byte := (List.range n).map fun k => memRead s (a + k)

/-- The lit pixels of some rows, as (row, column), by row. -/
def litIn (g : Vram) (rows : List (Fin 32)) : List (Nat × Nat) :=
  rows.flatMap fun q => ((List.finRange 64).filter (pixel g q ·)).map fun c => (q.val, c.val)

/-- The number of lit pixels. -/
def litCount (g : Vram) : Nat := (snapshotOf g).countP id

/-- A state whose memory lists something and is canonical, with the stack pointer and I at an edge. -/
def someState : State := { memWriteAll (withRegs [(0, 0x12), (1, 0xFE)]) 0x300 [1, 2] with sp := 0x00, i := 0x0FFE }

/-! ### WellFormed refuses an ill-formed term for each check -/

/-- A pattern bit outside the mask: no word could select the row. -/
theorem test_row_wf_refuses : (OpRow.mk 0x00E0 0xF000 fun _ => .cls).wf = false := by decide

/-- Two rows that share the word 0x8120. -/
theorem test_table_wf_refuses_overlap :
    tableWf [rowXys 0x8000 .ldReg, rowXkk 0x8000 .ldImm] = false := by decide

/-- A table with an ill-formed row. -/
theorem test_table_wf_refuses_row : tableWf [OpRow.mk 0x00E0 0xF000 fun _ => .cls] = false := by decide

/-- K22: 3585 bytes do not fit; K21: 3584 do. -/
theorem test_load_fits : loadFits (.replicate 3585 0) = false ∧ loadFits (.replicate 3584 0) = true := by
  unfold loadFits
  rw [List.length_replicate, List.length_replicate]
  decide

/-- A font of 79 bytes, and one that reaches into the stack page (D12: FONT_OFFSET + 80 ≤ 0x100). -/
theorem test_font_wf_refuses :
    fontWf 0 (fontTable.take 79) = false ∧ fontWf 0xB1 fontTable = false ∧ fontWf fontOffset fontTable = true := by
  decide

/-- A listed cell outside the address space, one that holds what its address reads as unlisted, and two out of order. -/
theorem test_memory_wf_refuses :
    ¬ Memory.wf [(4096, 1)] ∧ ¬ Memory.wf [(0x300, 0)] ∧ ¬ Memory.wf [(0x301, 1), (0x300, 1)] ∧
      Memory.wf [(0x300, 1), (0x301, 1)] := by decide

/-! ### Decoding: a word of every row, from R81, R84 and the decode table 2.1 -/

theorem test_decode_cls : decode 0x00 0xE0 = .instr .cls := by decide
theorem test_decode_ret : decode 0x00 0xEE = .instr .ret := by decide
theorem test_decode_jp : decode 0x10 0xE0 = .instr (.jp 0x0E0) := by decide
theorem test_decode_call : decode 0x2F 0xFF = .instr (.call 0xFFF) := by decide
theorem test_decode_seImm : decode 0x3A 0x7F = .instr (.seImm 0xA 0x7F) := by decide
theorem test_decode_sneImm : decode 0x40 0x13 = .instr (.sneImm 0x0 0x13) := by decide
theorem test_decode_seReg : decode 0x5A 0xB0 = .instr (.seReg 0xA 0xB) := by decide
theorem test_decode_ldImm : decode 0x6A 0xDE = .instr (.ldImm 0xA 0xDE) := by decide
theorem test_decode_addImm : decode 0x73 0x02 = .instr (.addImm 0x3 0x02) := by decide
theorem test_decode_ldReg : decode 0x81 0x20 = .instr (.ldReg 0x1 0x2) := by decide
theorem test_decode_orReg : decode 0x81 0x21 = .instr (.orReg 0x1 0x2) := by decide
theorem test_decode_andReg : decode 0x81 0x22 = .instr (.andReg 0x1 0x2) := by decide
theorem test_decode_xorReg : decode 0x81 0x23 = .instr (.xorReg 0x1 0x2) := by decide
theorem test_decode_addReg : decode 0x8A 0xB4 = .instr (.addReg 0xA 0xB) := by decide
theorem test_decode_sub : decode 0x81 0x25 = .instr (.sub 0x1 0x2) := by decide
theorem test_decode_shr : decode 0x81 0x26 = .instr (.shr 0x1 0x2) := by decide
theorem test_decode_subn : decode 0x81 0x27 = .instr (.subn 0x1 0x2) := by decide
theorem test_decode_shl : decode 0x8A 0xBE = .instr (.shl 0xA 0xB) := by decide
theorem test_decode_sneReg : decode 0x9A 0xB0 = .instr (.sneReg 0xA 0xB) := by decide
theorem test_decode_ldI : decode 0xA1 0x23 = .instr (.ldI 0x123) := by decide
theorem test_decode_jpV0 : decode 0xB3 0x00 = .instr (.jpV0 0x300) := by decide
theorem test_decode_rnd : decode 0xC3 0x0F = .instr (.rnd 0x3 0x0F) := by decide
theorem test_decode_drw : decode 0xD1 0x2F = .instr (.drw 0x1 0x2 0xF) := by decide
theorem test_decode_skp : decode 0xE1 0x9E = .instr (.skp 0x1) := by decide
theorem test_decode_sknp : decode 0xE1 0xA1 = .instr (.sknp 0x1) := by decide
theorem test_decode_ldVxDt : decode 0xF3 0x07 = .instr (.ldVxDt 0x3) := by decide
theorem test_decode_ldVxK : decode 0xF2 0x0A = .instr (.ldVxK 0x2) := by decide
theorem test_decode_ldDtVx : decode 0xF0 0x15 = .instr (.ldDtVx 0x0) := by decide
theorem test_decode_ldStVx : decode 0xF4 0x18 = .instr (.ldStVx 0x4) := by decide
theorem test_decode_addI : decode 0xF2 0x1E = .instr (.addI 0x2) := by decide
theorem test_decode_ldF : decode 0xF1 0x29 = .instr (.ldF 0x1) := by decide
theorem test_decode_ldB : decode 0xF0 0x33 = .instr (.ldB 0x0) := by decide
theorem test_decode_ldMemVx : decode 0xF2 0x55 = .instr (.ldMemVx 0x2) := by decide
theorem test_decode_ldVxMem : decode 0xF3 0x65 = .instr (.ldVxMem 0x3) := by decide

/-- Words of 2.1 that select no row. -/
def noRow : List Word :=
  [0x01E0, 0x5AB1, 0x8AB8, 0x8ABD, 0x8ABF, 0x9ABF, 0xE19F, 0xE100, 0xE1A0, 0xF375, 0xF300, 0xF3FF, 0xF31F]

theorem test_decode_unmatched : noRow.map decodeWord = noRow.map .unmatched := by decide

/-- The host's numbering: bit 0 is the least significant bit of the word, bits above nbits are 0. -/
theorem test_decodeTableWord :
    decodeTableWord 16 0x8AB4 = some (.addReg 0xA 0xB) ∧ decodeTableWord 16 0xF1234 = some (.jp 0x234) ∧
      decodeTableWord 16 0x01E0 = none := by decide

/-- The spellings of R91 that X6, P1 and P2 show. -/
theorem test_asm :
    asmWord 0x6005 = "LD V0, 0x05" ∧ asmWord 0x8104 = "ADD V1, V0" ∧ asmWord 0x1204 = "JP 0x204" ∧
      asmWord 0xF265 = "LD V2, [I]" ∧ asmWord 0xD125 = "DRW V1, V2, 5" ∧ asmWord 0x8016 = "SHR V0, V1" := by decide +kernel

/-! ### Control transfer (vectors T) -/

/-- T1 and T2 (an odd target). -/
theorem test_jp : look .reset 0x1ABC (·.pc) = some 0x0ABC ∧ look .reset 0x1201 (·.pc) = some 0x0201 := by decide

/-- T3: the return address low byte at 0x1FF, high byte at 0x1FE. -/
theorem test_call : look { State.reset with pc := 0x0300 } 0x2456 (fun t => (t.pc, t.sp, bytesAt t 0x1FE 2)) =
    some (0x0456, 0xFD, [0x03, 0x02]) := by decide

/-- T7: the stack pointer wraps inside the page. -/
theorem test_call_wraps : look { State.reset with pc := 0x0310, sp := 0x00 } 0x2400
    (fun t => (t.pc, t.sp, memRead t 0x100, memRead t 0x1FF)) = some (0x0400, 0xFE, 0x12, 0x03) := by decide

/-- T5: RET on an empty stack reads 0x100 and 0x101. -/
theorem test_ret_wraps : look (memWriteAll .reset 0x100 [0x03, 0x21]) 0x00EE (fun t => (t.pc, t.sp)) =
    some (0x0321, 0x01) := by decide

/-- X3: a RET after the CALL of T3. -/
theorem test_ret_after_call :
    look { memWriteAll .reset 0x1FE [0x03, 0x02] with sp := 0xFD } 0x00EE (fun t => (t.pc, t.sp)) =
      some (0x0302, 0xFF) := by decide

/-- T9, T10. -/
theorem test_seImm : look (withRegs [(0, 0x12)]) 0x3012 (·.pc) = some 0x0204 ∧
    look (withRegs [(0, 0x12)]) 0x3013 (·.pc) = some 0x0202 := by decide

/-- T11, T12. -/
theorem test_sneImm : look (withRegs [(0, 0x12)]) 0x4012 (·.pc) = some 0x0202 ∧
    look (withRegs [(0, 0x12)]) 0x4013 (·.pc) = some 0x0204 := by decide

/-- T13, T14. -/
theorem test_seReg : look (withRegs [(1, 7), (2, 7)]) 0x5120 (·.pc) = some 0x0204 ∧
    look (withRegs [(1, 7), (2, 8)]) 0x5120 (·.pc) = some 0x0202 := by decide

/-- T16, T17. -/
theorem test_sneReg : look (withRegs [(1, 7), (2, 7)]) 0x9120 (·.pc) = some 0x0202 ∧
    look (withRegs [(1, 7), (2, 8)]) 0x9120 (·.pc) = some 0x0204 := by decide

/-- T19, T21 (stored unmasked). -/
theorem test_jpV0 : look (withRegs [(0, 0x02)]) 0xB300 (·.pc) = some 0x0302 ∧
    look (withRegs [(0, 0xFF)]) 0xBFFF (·.pc) = some 0x10FE := by decide

/-- T22: an unmatched word advances PC. -/
theorem test_unmatched : look (withRegs [(0, 0x22), (1, 0x11)]) 0x812F (fun t => (t.pc, getV t 0, getV t 1, getV t 15)) =
    some (0x0202, 0x22, 0x11, 0x00) := by decide

/-- T23, T24: PC wraps at 65536. -/
theorem test_pc_wraps : look { State.reset with pc := 0xFFFE } 0x6000 (·.pc) = some 0x0000 ∧
    look { State.reset with pc := 0xFFFE } 0x3000 (·.pc) = some 0x0002 := by decide

/-- T25: a fetch that crosses 0xFFF, from bytes laid out by hand. -/
theorem test_fetch_wraps :
    (nextOf (step { memWrite (memWrite .reset 0xFFF 0x61) 0x000 0x77 with pc := 0x0FFF })).map
      (fun t => (getV t 1, t.pc)) = some (0x77, 0x1001) := by decide

/-- T27: a fetch at an odd PC. -/
theorem test_fetch_odd :
    (nextOf (step { memWriteAll .reset 0x200 [0x12, 0x63, 0x45, 0x00] with pc := 0x0201 })).map
      (fun t => (getV t 3, t.pc)) = some (0x45, 0x0203) := by decide

/-- T28: a pending key-wait. -/
theorem test_step_waiting :
    (nextOf (step { memWriteAll .reset 0x200 [0x60, 0x55] with wait := some 2 })).map (fun t => (t.pc, getV t 0, t.wait)) =
      some (0x0200, 0x00, some 2) := by decide

/-! ### Register file and ALU (vectors A) -/

/-- A41. -/
theorem test_ldImm : look (withRegs [(0, 0x01)]) 0x6ADE (fun t => (getV t 10, getV t 0)) = some (0xDE, 0x01) := by decide

/-- A1, A2. -/
theorem test_addImm : look (withRegs [(3, 0xFF), (15, 0x55)]) 0x7302 (fun t => (getV t 3, getV t 15)) = some (0x01, 0x55) ∧
    look (withRegs [(15, 0xFF)]) 0x7F01 (getV · 15) = some 0x00 := by decide

/-- A3. -/
theorem test_ldReg : look (withRegs [(1, 0x01), (2, 0x5A)]) 0x8120 (fun t => (getV t 1, getV t 2)) = some (0x5A, 0x5A) := by
  decide

/-- A4. -/
theorem test_orReg : look (withRegs [(1, 0xF0), (2, 0x0F), (15, 1)]) 0x8121 (fun t => (getV t 1, getV t 15)) =
    some (0xFF, 0x01) := by decide

/-- A5. -/
theorem test_andReg : look (withRegs [(1, 0xF0), (2, 0x3C), (15, 1)]) 0x8122 (fun t => (getV t 1, getV t 15)) =
    some (0x30, 0x01) := by decide

/-- A6. -/
theorem test_xorReg : look (withRegs [(1, 0xF0), (2, 0x3C), (15, 1)]) 0x8123 (fun t => (getV t 1, getV t 15)) =
    some (0xCC, 0x01) := by decide

/-- A8, A9. -/
theorem test_addReg : look (withRegs [(1, 0xFF), (2, 0x01)]) 0x8124 (fun t => (getV t 1, getV t 15)) = some (0x00, 0x01) ∧
    look (withRegs [(1, 0x80), (2, 0x7F), (15, 1)]) 0x8124 (fun t => (getV t 1, getV t 15)) = some (0xFF, 0x00) := by
  decide

/-- A11, A14: VF as destination and as source. -/
theorem test_addReg_vf : look (withRegs [(15, 0xFF), (2, 0x01)]) 0x8F24 (getV · 15) = some 0x01 ∧
    look (withRegs [(1, 0xF0), (15, 0x20)]) 0x81F4 (fun t => (getV t 1, getV t 15)) = some (0x10, 0x01) := by decide

/-- A16, A17: a borrow, and equal operands. -/
theorem test_sub : look (withRegs [(1, 3), (2, 5), (15, 1)]) 0x8125 (fun t => (getV t 1, getV t 15)) = some (0xFE, 0x00) ∧
    look (withRegs [(1, 7), (2, 7), (15, 1)]) 0x8125 (fun t => (getV t 1, getV t 15)) = some (0x00, 0x00) := by decide

/-- A20, A21: the flag stays. -/
theorem test_sub_vf : look (withRegs [(15, 5), (2, 3)]) 0x8F25 (getV · 15) = some 0x01 ∧
    look (withRegs [(15, 3), (2, 5)]) 0x8F25 (getV · 15) = some 0x00 := by decide

/-- A25: the ignored register neither read nor written. -/
theorem test_shr : look (withRegs [(1, 4), (10, 0xFF), (15, 1)]) 0x81A6 (fun t => (getV t 1, getV t 10, getV t 15)) =
    some (0x02, 0xFF, 0x00) := by decide

/-- A29: the shifted value stays. -/
theorem test_shr_vf : look (withRegs [(15, 7)]) 0x8F06 (getV · 15) = some 0x03 := by decide

/-- A30, A31. -/
theorem test_subn : look (withRegs [(1, 3), (2, 5)]) 0x8127 (fun t => (getV t 1, getV t 15)) = some (0x02, 0x01) ∧
    look (withRegs [(1, 5), (2, 3), (15, 1)]) 0x8127 (fun t => (getV t 1, getV t 15)) = some (0xFE, 0x00) := by decide

/-- A33: the flag stays. -/
theorem test_subn_vf : look (withRegs [(15, 3), (2, 5)]) 0x8F27 (getV · 15) = some 0x01 := by decide

/-- A34. -/
theorem test_shl : look (withRegs [(1, 0x81), (2, 0xFF)]) 0x812E (fun t => (getV t 1, getV t 2, getV t 15)) =
    some (0x02, 0xFF, 0x01) := by decide

/-- A37: the shifted value stays. -/
theorem test_shl_vf : look (withRegs [(15, 0xC0)]) 0x8F0E (getV · 15) = some 0x80 := by decide

/-- A39: with kk = 0 the free byte does not show; one draw was taken, and PC advanced. -/
theorem test_rnd : look (withRegs [(3, 0x99)]) 0xC300 (fun t => (t.draws, t.pc)) = some (1, 0x0202) := by decide

/-- A39: the register is 0 whatever the free byte is. -/
theorem test_rnd_masked : look (withRegs [(3, 0x99)]) 0xC300 (getV · 3) = some 0x00 :=
  congrArg some (BitVec.and_zero (x := Config.rnd 0))

/-! ### Index register, loads and stores (vectors M) -/

/-- M1. -/
theorem test_ldI : look { State.reset with i := 0xFFFF } 0xA123 (·.i) = some 0x0123 := by decide

/-- M3, M4: no mask at 12 bits, a wrap at 16, no flag. -/
theorem test_addI :
    look { withRegs [(0, 1)] with i := 0x0FFF } 0xF01E (fun t => (t.i, getV t 15)) = some (0x1000, 0x00) ∧
    look { withRegs [(0, 2)] with i := 0xFFFF } 0xF01E (fun t => (t.i, getV t 15)) = some (0x0001, 0x00) := by decide

/-- M6, M7. -/
theorem test_ldF : look (withRegs [(1, 0x1A)]) 0xF129 (·.i) = some 0x0032 ∧
    look (withRegs [(1, 0xFF)]) 0xF129 (·.i) = some 0x004B := by decide

/-- M9. -/
theorem test_ldB : look { withRegs [(0, 0xFE)] with i := 0x0300 } 0xF033 (fun t => (bytesAt t 0x300 3, t.i)) =
    some ([0x02, 0x05, 0x04], 0x0300) := by decide

/-- M17: the addresses wrap. -/
theorem test_ldB_wraps : look { withRegs [(0, 0x7B)] with i := 0x1FFE } 0xF033
    (fun t => (bytesAt t 0xFFE 2, memRead t 0x000, t.i)) = some ([0x01, 0x02], 0x03, 0x1FFE) := by decide

/-- M18: Vx included, the next one not. -/
theorem test_ldMemVx : look { withRegs [(0, 1), (1, 2), (2, 3), (3, 9)] with i := 0x0300 } 0xF255
    (fun t => (bytesAt t 0x300 4, t.i)) = some ([0x01, 0x02, 0x03, 0x00], 0x0300) := by decide

/-- M20: the addresses wrap and the next font byte is left. -/
theorem test_ldMemVx_wraps : look { withRegs [(0, 0xAA), (1, 0xBB)] with i := 0x0FFF } 0xF155
    (fun t => (memRead t 0xFFF, bytesAt t 0x000 2)) = some (0xAA, [0xBB, 0x90]) := by decide

/-- M22. -/
theorem test_ldVxMem : look { memWriteAll (withRegs [(3, 0x77)]) 0x300 [2, 5, 4, 9] with i := 0x0300 } 0xF265
    (fun t => ([getV t 0, getV t 1, getV t 2, getV t 3], t.i)) = some ([2, 5, 4, 0x77], 0x0300) := by decide

/-- M26: glyph 0 read back. -/
theorem test_ldVxMem_font : look .reset 0xF465 (fun t => [getV t 0, getV t 1, getV t 2, getV t 3, getV t 4]) =
    some [0xF0, 0x90, 0x90, 0x90, 0xF0] := by decide

/-! ### Frame buffer and display (vectors F and G) -/

/-- F1: the horizontal wrap. -/
theorem test_drawByte_wraps :
    let r := drawByte 62 0 0xFF clearVram
    r.2 = false ∧ litIn r.1 [0] = [(0, 0), (0, 1), (0, 2), (0, 3), (0, 4), (0, 5), (0, 62), (0, 63)] := by decide +kernel

/-- F4: a collision. -/
theorem test_drawByte_collides :
    let r := drawByte 2 0 0xF0 (drawByte 0 0 0xF0 clearVram).1
    r.2 = true ∧ litIn r.1 [0] = [(0, 0), (0, 1), (0, 4), (0, 5)] := by decide +kernel

/-- F7: `VRAM[2047]` and `VRAM[1990]`. -/
theorem test_snapshot_index :
    let grid := snapshotOf (drawByte 255 31 0x81 clearVram).1
    grid[2047]? = some true ∧ grid[1990]? = some true ∧ grid.countP id = 2 := by decide +kernel

/-- G1. -/
theorem test_cls : look { withRegs [(15, 1)] with vram := (drawByte 0 0 0xF0 clearVram).1 } 0x00E0
    (fun t => (litCount t.vram, getV t 15)) = some (0, 0x01) := by decide +kernel

/-- G2, the glyph of X8. -/
theorem test_drw_glyph : look .reset 0xD015 (fun t => (litIn t.vram [0, 1, 4, 5], litCount t.vram, getV t 15)) =
    some ([(0, 0), (0, 1), (0, 2), (0, 3), (1, 0), (1, 3), (4, 0), (4, 1), (4, 2), (4, 3)], 14, 0x00) := by decide +kernel

/-- G8: VF as a coordinate and as the flag. -/
theorem test_drw_vf :
    look { memWrite (withRegs [(15, 5)]) 0x300 0x80 with i := 0x0300, vram := setPixel clearVram 0 5 true } 0xDF11
      (fun t => (pixel t.vram 0 5, getV t 15)) = some (false, 0x01) := by decide +kernel

/-! ### Keys, timers and events (vectors K) -/

/-- K5 (the low nibble selects), K2. -/
theorem test_skp : look (setKey (withRegs [(1, 0x15)]) 5 true) 0xE19E (·.pc) = some 0x0204 ∧
    look (withRegs [(1, 0x05)]) 0xE19E (·.pc) = some 0x0202 := by decide

/-- K3, K4. -/
theorem test_sknp : look (withRegs [(1, 0x05)]) 0xE1A1 (·.pc) = some 0x0204 ∧
    look (setKey (withRegs [(1, 0x05)]) 5 true) 0xE1A1 (·.pc) = some 0x0202 := by decide

/-- K6. -/
theorem test_ldVxDt : look { State.reset with dt := 0x2A } 0xF307 (fun t => (getV t 3, t.dt)) = some (0x2A, 0x2A) := by
  decide

/-- K10. -/
theorem test_ldVxK : look { withRegs [(2, 0x33)] with pc := 0x020A } 0xF20A (fun t => (t.wait, t.pc, getV t 2)) =
    some (some 2, 0x020C, 0x33) := by decide

/-- K7. -/
theorem test_ldDtVx : look (withRegs [(0, 3)]) 0xF015 (·.dt) = some 0x03 := by decide

/-- K8, K9. -/
theorem test_ldStVx : look (withRegs [(4, 0x10)]) 0xF418 (fun t => (t.st, soundActive t)) = some (0x10, true) ∧
    look { State.reset with st := 0x10 } 0xF418 (fun t => (t.st, soundActive t)) = some (0x00, false) := by decide

/-- K14 (a key already down), K13. -/
theorem test_key_event :
    lookEvent (setKey { State.reset with wait := some 2 } 7 true) (.key 7 true)
      (fun t => (getKey t 7, getV t 2, t.wait)) = some (true, 0x07, none) ∧
    lookEvent (setKey { State.reset with wait := some 2 } 7 true) (.key 7 false)
      (fun t => (getKey t 7, getV t 2, t.wait)) = some (false, 0x00, some 2) := by decide

/-- K17, K19, K20. -/
theorem test_tick : lookEvent { State.reset with dt := 2, st := 1 } .tick (fun t => (t.dt, t.st)) = some (0x01, 0x00) ∧
    lookEvent .reset .tick (fun t => (t.dt, t.st)) = some (0x00, 0x00) ∧
    lookEvent { State.reset with dt := 5, wait := some 2 } .tick (fun t => (t.dt, t.wait)) = some (0x04, some 2) := by
  decide

/-- K25, and the model's own count of draws kept (log 2). -/
theorem test_reset_event : lookEvent { someState with draws := 5, wait := some 2 } .reset
    (fun t => (t.pc, t.sp, t.wait, getV t 1, memRead t 0x300, t.draws)) = some (0x0200, 0xFF, none, 0x00, 0x00, 5) := by
  decide

/-- K24. -/
theorem test_load : lookEvent { withRegs [(0, 0x12)] with pc := 0x0300, sp := 0xFD } (.load [0x12, 0x00])
    (fun t => (bytesAt t 0x200 2, t.pc, getV t 0, t.sp)) = some ([0x12, 0x00], 0x0300, 0x12, 0xFD) := by decide

/-! ### Witnesses: states and operands that meet every hypothesis of a statement together -/

theorem test_witness_someState_wf : someState.mem.wf ∧ someState.mem ≠ [] := by decide

/-- DecodedWordIsItsEncoding. -/
theorem test_witness_decoded : decodeWord 0xD12F = .instr (.drw 0x1 0x2 0xF) := by decide

/-- DecodingSelectsTheMatchingRow, both clauses: 0x8AB4 selects the row of 8xy4, 0x01E0 selects none. -/
theorem test_witness_rows : rowXys 0x8004 .addReg ∈ opcodeTable ∧ (0x8AB4 : Word) &&& 0xF00F = 0x8004 ∧
    ∀ r ∈ opcodeTable, (0x01E0 : Word) &&& r.mask ≠ r.pattern := by
  refine ⟨?_, by decide, by decide⟩
  simp [opcodeTable]

/-- FetchIsBigEndian, StepRunsTheDecodedInstruction. -/
theorem test_witness_step_runs :
    let s := someState.withFetchWord 16 0x1234
    s.wait = none ∧ decode (memRead s s.pc.toNat) (memRead s (s.pc.toNat + 1)) = .instr (.jp 0x234) := by decide

/-- UnmatchedWordOnlyAdvancesPc. -/
theorem test_witness_unmatched :
    let s := someState.withFetchWord 16 0x0123
    s.wait = none ∧ decode (memRead s s.pc.toNat) (memRead s (s.pc.toNat + 1)) = .unmatched 0x0123 := by decide

/-- StepWhileWaitingChangesNothing. -/
theorem test_witness_waiting : { someState with wait := some 2 }.wait = some 2 := rfl

/-- SelfJumpIsAFixedPoint, and the last clause of JumpGoesToItsTarget: 0x1200 at 0x200. -/
theorem test_witness_self_jump : atSelfJump (someState.withFetchWord 16 0x1200) ∧
    (someState.withFetchWord 16 0x1200).pc.toNat = (0x200 : Addr).toNat :=
  ⟨⟨rfl, 0x200, by decide, by decide⟩, by decide⟩

/-- StepKeepsMemoryCanonical, and the memory clause of StepChangesStateOnlyAsTheTableSays: F133 stores three digits. -/
theorem test_witness_step_stores : ∃ s t, s.mem.wf ∧ step s = .next t ∧ t.mem ≠ s.mem ∧ s.wait = none :=
  ⟨someState.withFetchWord 16 0xF133, _, by decide, rfl, by decide, rfl⟩

/-- EventsKeepMemoryCanonical: a LOAD and a key. -/
theorem test_witness_events : ∃ t, someState.mem.wf ∧ runEvents [.load [0x12, 0x00], .key 3 true] someState = .next t :=
  ⟨_, by decide, rfl⟩

/-- MemoryReadsBackModulo4096: both clauses. -/
theorem test_witness_memory : someState.mem.wf ∧ 0x1300 % 4096 = 0x300 % 4096 ∧ ¬ 0xFFF % 4096 = 0x1000 % 4096 := by decide

/-- StackIsLastInFirstOut: the most bytes it speaks of, from a pointer that wraps. -/
theorem test_witness_stack : someState.mem.wf ∧ (List.replicate 256 (0xAB : Byte)).length ≤ 256 := by
  rw [List.length_replicate]
  decide

/-- ReturnGoesBackAfterTheCall, CallSavesTheReturnAddress: the state after the CALL itself is one that meets them. -/
theorem test_witness_call_ret : ∃ t u, someState.mem.wf ∧ exec (.call 0x456) someState = .next t ∧ u.sp = t.sp ∧
    memRead u (0x100 + someState.sp.toNat) = memRead t (0x100 + someState.sp.toNat) ∧
    memRead u (0x100 + (someState.sp - 1).toNat) = memRead t (0x100 + (someState.sp - 1).toNat) ∧ u.pc ≠ t.pc := by
  refine ⟨_, advance ((nextOf (exec (.call 0x456) someState)).getD someState), by decide, rfl, ?_⟩
  decide

/-- RegisterSkipsTakeFourOrTwo, KeySkipsTestTheSelectedKey: the highest PC they speak of, and a Vx above 15. -/
theorem test_witness_skips : ({ someState with pc := 0xFFFB }).pc.toNat + 4 < 65536 ∧
    (0xE : Nibble).toNat = (getV someState 1).toNat % 16 := by decide

/-- ClearScreenPutsOutEveryPixel: the highest PC its last clause speaks of. -/
theorem test_witness_cls : ({ someState with pc := 0xFFFD }).pc.toNat + 2 < 65536 := by decide

/-- The clauses of the ALU statements for a destination other than VF, and of the shifts for a third register. -/
theorem test_witness_alu : (14 : Reg) ≠ 15 ∧ (2 : Reg) ≠ 14 ∧ (2 : Reg) ≠ 15 := by decide

/-- DecimalDigitsAreStored, StoreWritesV0ToVx: canonical memory, I where the addresses wrap; x = 15 reaches every
register. -/
theorem test_witness_stores : someState.mem.wf ∧ someState.i = 0x0FFE ∧ (15 : Reg).toNat ≤ (15 : Reg).toNat := by decide

/-- SnapshotDuringDrawSeesWholeRows: 15 rows, and the last of its points. -/
theorem test_witness_draw :
    let s := someState.withFetchWord 16 0xD01F
    s.wait = none ∧ decodeNext s = .instr (.drw 0 1 15) ∧ 15 ≤ (15 : Nibble).toNat := by decide

/-- TimerMovesCopyTheByte: a register that is 0, one that is not VF. -/
theorem test_witness_timers : (getV someState 2).toNat = 0 ∧ (2 : Reg) ≠ 15 := by decide

/-- KeyEventResolvesTheWait: a key-down in a wait on VF, and each half of the other clause. -/
theorem test_witness_key : ({ someState with wait := some 15 }).wait = some 15 ∧ someState.wait = none ∧
    ({ someState with wait := some 15 }).wait ≠ none := by decide

/-- TickCommutesWithOtherInstructions; and Fx0A, which touches no timer either. -/
theorem test_witness_tick : (∀ x, Instr.addReg 1 2 ≠ .ldVxDt x ∧ Instr.addReg 1 2 ≠ .ldDtVx x ∧ Instr.addReg 1 2 ≠ .ldStVx x) ∧
    ∀ x, Instr.ldVxK 3 ≠ .ldVxDt x ∧ Instr.ldVxK 3 ≠ .ldDtVx x ∧ Instr.ldVxK 3 ≠ .ldStVx x := by simp

/-- LoadCopiesOrIsRejected: the longest accepted and the shortest rejected sequence, and addresses at the edges. -/
theorem test_witness_load : someState.mem.wf ∧ (List.replicate 3584 (0 : Byte)).length ≤ 3584 ∧
    3584 < (List.replicate 3585 (0 : Byte)).length ∧ 0x1FF < 0x200 ∧ 0x200 + [(0 : Byte)].length ≤ 0x201 := by
  rw [List.length_replicate, List.length_replicate]
  decide

/-- StepChangesStateOnlyAsTheTableSays: a step that changes I, SP, DT, ST, WAIT and the frame buffer, each in turn. -/
theorem test_witness_changes :
    look someState 0xA123 (·.i) ≠ some someState.i ∧ look someState 0x2456 (·.sp) ≠ some someState.sp ∧
    look someState 0xF015 (·.dt) ≠ some someState.dt ∧ look someState 0xF018 (·.st) ≠ some someState.st ∧
    look someState 0xF20A (·.wait) ≠ some someState.wait ∧ look someState 0xD003 (fun t => litCount t.vram) ≠ some 0 := by
  decide +kernel

/-- PixelsReachAProgramOnlyThroughVf, NoInstructionReadsTheSoundTimer: an instruction of each clause. -/
theorem test_witness_classes : (∀ x y n, Instr.ldB 3 ≠ .drw x y n) ∧ (∀ x, Instr.ldB 3 ≠ .ldStVx x) ∧
    ∃ x, Instr.ldStVx 4 = .ldStVx x := by simp

end Sys2Proof.Tests
end

section
/-! The step's fetch (R54 of spec/20_memory.md, R100 to R102 of spec/40_step_and_control_flow.md): the word between the two
bytes at PC and the instruction that runs. -/

namespace Sys2Proof.Machine

/-- With no key-wait pending the gate of R100 is open: the step executes what the bytes at PC decode to. -/
theorem step_of_wait_eq_none {s : State} (h : s.wait = none) : step s = execDecoded (decodeNext s) s := by
  unfold step cycle
  rw [h]

/-- The other direction of `wordBytes_join`: two bytes joined into a word and cut again. -/
theorem wordBytes_append (hi lo : Byte) : wordBytes (hi ++ lo) = (hi, lo) :=
  Prod.ext BitVec.extractLsb'_append_eq_left BitVec.extractLsb'_append_eq_right

/-- Settles O6: the word is `MEM[PC] ++ MEM[PC + 1]`, whose two bytes are those read and whose decoding the step runs. -/
theorem fetchIsBigEndian : Obligations.FetchIsBigEndian := by
  intro s hwait
  have hbytes := wordBytes_append (memRead s s.pc.toNat) (memRead s (s.pc.toNat + 1))
  exact ⟨memRead s s.pc.toNat ++ memRead s (s.pc.toNat + 1), congrArg Prod.fst hbytes, congrArg Prod.snd hbytes,
    step_of_wait_eq_none hwait⟩

end Sys2Proof.Machine
end

section
/-! The decoder on encodings (R83 of spec/30_encoding.md): rows that never overlap make the lookup independent of the
order of the rows, so the row an instruction's encoding selects is the row found. -/

namespace Sys2Proof

/-- Disjoint rows differ in a bit under both masks; no word can agree with both there. -/
theorem OpRow.not_selects_of_disjoint {r q : OpRow} {ir : Word} (hd : r.disjoint q = true) (hq : q.selects ir = true) :
    r.selects ir = false := by
  by_contra hr
  have hr' : ir &&& r.mask = r.pattern := beq_iff_eq.mp (Bool.eq_true_of_not_eq_false hr)
  have hq' : ir &&& q.mask = q.pattern := beq_iff_eq.mp hq
  have agree : (r.pattern ^^^ q.pattern) &&& (r.mask &&& q.mask) = 0 := by
    rw [← hr', ← hq']
    ext j
    simp only [BitVec.getElem_and, BitVec.getElem_xor, BitVec.ofNat_eq_ofNat, BitVec.getElem_zero]
    cases ir[j] <;> cases r.mask[j] <;> cases q.mask[j] <;> rfl
  exact bne_iff_ne.mp hd agree

/-- In a table without overlaps the lookup finds whichever row selects the word. -/
theorem find?_selects_eq_some {rows : List OpRow} {r : OpRow} {ir : Word} (hwf : tableWf rows = true) (hmem : r ∈ rows)
    (hsel : r.selects ir = true) : rows.find? (·.selects ir) = some r := by
  induction rows with
  | nil => cases hmem
  | cons q rest ih =>
    simp only [tableWf, Bool.and_eq_true, List.all_eq_true] at hwf
    obtain ⟨⟨-, hdisj⟩, hrest⟩ := hwf
    rcases List.mem_cons.mp hmem with rfl | hmem
    · exact List.find?_cons_of_pos hsel
    · have hq : q.selects ir = false := OpRow.not_selects_of_disjoint (hdisj r hmem) hsel
      rw [List.find?_cons_of_neg (by simp [hq])]
      exact ih hrest hmem

/-- A word that a row of the opcode table selects decodes to what that row builds from it. -/
theorem decodeWord_of_selects {r : OpRow} {ir : Word} (hmem : r ∈ opcodeTable) (hsel : r.selects ir = true) :
    decodeWord ir = .instr (r.build ir) := by
  unfold decodeWord
  rw [find?_selects_eq_some opcodeTable_wf hmem hsel]

/-- The encoding of an instruction, when it selects the instruction's own row with the operands in the row's fields, is
decoded to the instruction. -/
theorem decodeWord_of_rowMatch {i : Instr} {ir : Word} (h : Laws.RowMatch.Statement i) (hir : encode i = ir) :
    decodeWord ir = .instr i := by
  obtain ⟨hmem, hsel, hbuild⟩ := h
  rw [← hir, decodeWord_of_selects hmem hsel, hbuild]

end Sys2Proof
end

section
/-! JP and the skips on registers (R104 and R106 to R109 of spec/40_step_and_control_flow.md): where PC goes, with every
register kept. -/

namespace Sys2Proof.Machine

variable {s : State}

theorem exec_jp (nnn : Addr) : exec (.jp nnn) s = .next (setPc s (addrOperand nnn)) := rfl

theorem exec_seImm (x : Reg) (kk : Byte) : exec (.seImm x kk) s = .next (skipIf s (getV s x == kk)) := rfl

theorem exec_sneImm (x : Reg) (kk : Byte) : exec (.sneImm x kk) s = .next (skipIf s (getV s x != kk)) := rfl

theorem exec_seReg (x y : Reg) : exec (.seReg x y) s = .next (skipIf s (getV s x == getV s y)) := rfl

theorem exec_sneReg (x y : Reg) : exec (.sneReg x y) s = .next (skipIf s (getV s x != getV s y)) := rfl

theorem toNat_addrOperand (nnn : Addr) : (addrOperand nnn).toNat = nnn.toNat :=
  BitVec.toNat_setWidth_of_le (by decide)

/-- Storing the PC a state already has changes nothing. -/
@[simp] theorem setPc_self : setPc s s.pc = s := rfl

@[simp] theorem skipIf_pc (taken : Bool) : (skipIf s taken).pc = if taken then s.pc + 4 else s.pc + 2 := rfl

/-- Below the top of PC's range a skip does not wrap. -/
theorem toNat_skipIf_pc (h : s.pc.toNat + 4 < 65536) (taken : Bool) :
    (skipIf s taken).pc.toNat = if taken then s.pc.toNat + 4 else s.pc.toNat + 2 := by
  rw [skipIf_pc]
  cases taken
  · exact BitVec.toNat_add_of_lt (show s.pc.toNat + 2 < 65536 by omega)
  · exact BitVec.toNat_add_of_lt h

/-- What any skip answers: its registers kept, and PC moved by 4 or 2 as the condition its flag decides says. -/
theorem exec_skip_spec {i : Instr} {taken : Bool} {c : Prop} [Decidable c] (hpc : s.pc.toNat + 4 < 65536)
    (hexec : exec i s = .next (skipIf s taken)) (hc : taken = true ↔ c) :
    ∃ t, exec i s = .next t ∧ (∀ r, getV t r = getV s r) ∧
      t.pc.toNat = if c then s.pc.toNat + 4 else s.pc.toNat + 2 :=
  ⟨skipIf s taken, hexec, getV_skipIf s taken, by rw [toNat_skipIf_pc hpc]; exact if_congr hc rfl rfl⟩

/-- The equality test of the skips compares the bytes as unsigned numbers. -/
theorem byte_beq_iff_toNat_eq {u w : Byte} : (u == w) = true ↔ u.toNat = w.toNat :=
  beq_iff_eq.trans BitVec.toNat_inj.symm

theorem byte_bne_iff_toNat_ne {u w : Byte} : (u != w) = true ↔ u.toNat ≠ w.toNat :=
  bne_iff_ne.trans BitVec.toNat_inj.not.symm

open Laws

/-- Settles O23: each skip's encoding selects its own row, and its flag decides the unsigned comparison its rule names. -/
theorem registerSkipsTakeFourOrTwo : Obligations.RegisterSkipsTakeFourOrTwo := by
  intro x y kk s hpc
  refine ⟨⟨?_, ?_⟩, ⟨?_, ?_⟩, ⟨?_, ?_⟩, ⟨?_, ?_⟩⟩
  · exact decodeWord_of_rowMatch (RowMatch.seImm x kk) rfl
  · exact exec_skip_spec hpc (exec_seImm x kk) byte_beq_iff_toNat_eq
  · exact decodeWord_of_rowMatch (RowMatch.sneImm x kk) rfl
  · exact exec_skip_spec hpc (exec_sneImm x kk) byte_bne_iff_toNat_ne
  · exact decodeWord_of_rowMatch (RowMatch.seReg x y) rfl
  · exact exec_skip_spec hpc (exec_seReg x y) byte_beq_iff_toNat_eq
  · exact decodeWord_of_rowMatch (RowMatch.sneReg x y) rfl
  · exact exec_skip_spec hpc (exec_sneReg x y) byte_bne_iff_toNat_ne

/-- Settles O21: the jump stores `nnn` in PC and nothing else, so a jump to its own address stores what PC holds. -/
theorem jumpGoesToItsTarget : Obligations.JumpGoesToItsTarget := by
  intro nnn s
  have hself : s.pc.toNat = nnn.toNat → setPc s (addrOperand nnn) = s := by
    intro h
    have hpc : addrOperand nnn = s.pc := BitVec.eq_of_toNat_eq ((toNat_addrOperand nnn).trans h.symm)
    rw [hpc, setPc_self]
  exact ⟨decodeWord_of_rowMatch (RowMatch.jp nnn) rfl,
    setPc s (addrOperand nnn), exec_jp nnn, toNat_addrOperand nnn, getV_setPc s (addrOperand nnn), hself⟩

end Sys2Proof.Machine
end

section
/-! Loads, subtractions and shifts (R131, R133, R138 to R141, R144, R145 of spec/41_alu.md): what Vx and VF hold after
each, read as unsigned numbers. -/

namespace Sys2Proof.Machine

variable {s : State}

theorem exec_ldImm (x : Reg) (kk : Byte) : exec (.ldImm x kk) s = .next (advance (setV s x kk)) := rfl

theorem exec_ldReg (x y : Reg) : exec (.ldReg x y) s = .next (advance (setV s x (getV s y))) := rfl

theorem exec_sub (x y : Reg) : exec (.sub x y) s =
    .next (advance (resultThenFlag s x (getV s x - getV s y) (greaterFlag (getV s x) (getV s y)))) := rfl

theorem exec_subn (x y : Reg) : exec (.subn x y) s =
    .next (advance (resultThenFlag s x (getV s y - getV s x) (greaterFlag (getV s y) (getV s x)))) := rfl

theorem exec_shr (x y : Reg) : exec (.shr x y) s =
    .next (advance (flagThenResult s x (lowBit (getV s x)) (getV s x >>> 1))) := rfl

theorem exec_shl (x y : Reg) : exec (.shl x y) s =
    .next (advance (flagThenResult s x (highBit (getV s x)) (getV s x <<< 1))) := rfl

/-! ### Flags and results as numbers -/

theorem toNat_flagByte (b : Bool) : (flagByte b).toNat = b.toNat := by
  cases b <;> rfl

theorem toNat_flagByte_greaterFlag (a b : Byte) :
    (flagByte (greaterFlag a b)).toNat = if a.toNat > b.toNat then 1 else 0 := by
  rw [toNat_flagByte, greaterFlag, Bool.toNat, Bool.cond_decide]

theorem toNat_flagByte_lowBit (a : Byte) : (flagByte (lowBit a)).toNat = a.toNat % 2 := by
  rw [toNat_flagByte, lowBit, BitVec.getLsbD, Nat.toNat_testBit, pow_zero, Nat.div_one]

/-- Bit 7 is the last of a byte, so no remainder is left to take. -/
theorem toNat_flagByte_highBit (a : Byte) : (flagByte (highBit a)).toNat = a.toNat / 128 := by
  rw [toNat_flagByte, highBit, BitVec.getLsbD, Nat.toNat_testBit]
  exact Nat.mod_eq_of_lt (Nat.div_lt_of_lt_mul a.isLt)

/-- The difference modulo 256 borrows at most once (R144). -/
theorem toNat_byte_sub (a b : Byte) :
    (a - b).toNat = if a.toNat ≥ b.toNat then a.toNat - b.toNat else a.toNat + 256 - b.toNat := by
  split
  · exact BitVec.toNat_sub_of_le ‹_›
  · bv_omega

theorem toNat_byte_shiftRight_one (a : Byte) : (a >>> 1).toNat = a.toNat / 2 := by
  rw [BitVec.toNat_ushiftRight, Nat.shiftRight_one]

theorem toNat_byte_shiftLeft_one (a : Byte) : (a <<< 1).toNat = a.toNat * 2 % 256 := by
  rw [BitVec.toNat_shiftLeft, Nat.shiftLeft_eq, pow_one]

/-! ### The two orders of result and flag, outside VF -/

/-- VF as the statements number it. -/
theorem regF_eq : regF = 15 := rfl

theorem getV_resultThenFlag_self {x : Reg} (u : Byte) (b : Bool) (h : x ≠ 15) :
    getV (resultThenFlag s x u b) x = u := by
  rw [getV_resultThenFlag, regF_eq, if_neg h, if_pos rfl]

theorem getV_flagThenResult_regF {x : Reg} (b : Bool) (u : Byte) (h : x ≠ 15) :
    getV (flagThenResult s x b u) regF = flagByte b := by
  rw [getV_flagThenResult, regF_eq, if_neg h.symm, if_pos rfl]

theorem getV_flagThenResult_of_ne {x r : Reg} (b : Bool) (u : Byte) (hrx : r ≠ x) (hrf : r ≠ 15) :
    getV (flagThenResult s x b u) r = getV s r := by
  rw [getV_flagThenResult, regF_eq, if_neg hrx, if_neg hrf]

/-! ### One lemma per shape of instruction -/

/-- A plain load: Vx as loaded, and VF written only as Vx. -/
theorem exec_load_spec {i : Instr} {x : Reg} {u : Byte} (hexec : exec i s = .next (advance (setV s x u))) :
    ∃ t, exec i s = .next t ∧ getV t x = u ∧ (x ≠ 15 → getV t 15 = getV s 15) :=
  ⟨advance (setV s x u), hexec, getV_setV_self s x u, fun hx => getV_setV_of_ne s u hx.symm⟩

/-- A subtraction of `b` from `a`, both read before the writes, with its result outside VF. -/
theorem exec_subtraction_spec {i : Instr} {x : Reg} {a b : Byte}
    (hexec : exec i s = .next (advance (resultThenFlag s x (a - b) (greaterFlag a b)))) :
    ∃ t, exec i s = .next t ∧ (x ≠ 15 →
      ((getV t x).toNat = if a.toNat ≥ b.toNat then a.toNat - b.toNat else a.toNat + 256 - b.toNat) ∧
      (getV t 15).toNat = if a.toNat > b.toNat then 1 else 0) := by
  refine ⟨_, hexec, fun hx => ⟨?_, ?_⟩⟩
  · rw [getV_advance, getV_resultThenFlag_self _ _ hx, toNat_byte_sub]
  · rw [getV_advance, ← regF_eq, getV_resultThenFlag_regF, toNat_flagByte_greaterFlag]

/-- A shift of Vx alone: the answer is one and the same for every operand y, and Vx and VF are all it writes. -/
theorem exec_shift_spec {shift : Reg → Instr} {x : Reg} {flag : Bool} {result : Byte} {n f : Nat}
    (hexec : ∀ z, exec (shift z) s = .next (advance (flagThenResult s x flag result)))
    (hresult : result.toNat = n) (hflag : (flagByte flag).toNat = f) (y : Reg) :
    ∃ t, exec (shift y) s = .next t ∧ (x ≠ 15 → (getV t x).toNat = n ∧ (getV t 15).toNat = f) ∧
      (y ≠ x → y ≠ 15 → getV t y = getV s y) ∧ ∀ z, exec (shift z) s = .next t := by
  refine ⟨_, hexec y, fun hx => ⟨?_, ?_⟩, getV_flagThenResult_of_ne flag result, hexec⟩
  · rw [getV_advance, getV_flagThenResult_self, hresult]
  · rw [getV_advance, ← regF_eq, getV_flagThenResult_regF _ _ hx, hflag]

open Laws

/-- Settles O29: 8xy5 and 8xy7 are one subtraction with the operands exchanged. -/
theorem subtractionLaw : Obligations.SubtractionLaw := by
  intro x y s
  exact ⟨exec_subtraction_spec (exec_sub x y), exec_subtraction_spec (exec_subn x y)⟩

/-- Settles O30: both shifts compute result and flag from the old Vx alone, by halving and by doubling. -/
theorem shiftLaw : Obligations.ShiftLaw := by
  intro x y s
  exact ⟨exec_shift_spec (exec_shr x) (toNat_byte_shiftRight_one _) (toNat_flagByte_lowBit _) y,
    exec_shift_spec (exec_shl x) (toNat_byte_shiftLeft_one _) (toNat_flagByte_highBit _) y⟩

/-- Settles O26: each load's encoding selects its own row, and its execution is one register write. -/
theorem loadsWriteVx : Obligations.LoadsWriteVx := by
  intro x y kk s
  refine ⟨⟨?_, ?_⟩, ⟨?_, ?_⟩⟩
  · exact decodeWord_of_rowMatch (RowMatch.ldImm x kk) rfl
  · exact exec_load_spec (exec_ldImm x kk)
  · exact decodeWord_of_rowMatch (RowMatch.ldReg x y) rfl
  · exact exec_load_spec (exec_ldReg x y)

end Sys2Proof.Machine
end

section
/-! Fx29 (R162 of spec/42_index_and_memory.md): the address of the glyph that the low nibble of Vx selects. -/

namespace Sys2Proof.Machine

theorem exec_ldF (x : Reg) (s : State) : exec (.ldF x) s = .next (advance (setI s (glyphAddr (getV s x)))) := rfl

/-- The last glyph starts at FONT_OFFSET + 75, far below the top of I's range, so the address does not wrap. -/
theorem toNat_glyphAddr (u : Byte) : (glyphAddr u).toNat = fontOffset + 5 * (u.toNat % 16) := by
  have hbound : fontOffset + 5 * (u.toNat % 16) < 2 ^ 16 := by
    unfold fontOffset
    omega
  rw [glyphAddr, BitVec.toNat_ofNat, Nat.mod_eq_of_lt hbound]

open Laws

/-- Settles O34: Fx29 writes the glyph's address to I and no register, and an address computed from Vx alone is the same
beside any memory. -/
theorem fontAddressFromLowNibble : Obligations.FontAddressFromLowNibble := by
  intro x s
  refine ⟨decodeWord_of_rowMatch (RowMatch.ldF x) rfl, advance (setI s (glyphAddr (getV s x))), exec_ldF x s, ?_, ?_, ?_⟩
  · exact toNat_glyphAddr (getV s x)
  · exact getV_setI s (glyphAddr (getV s x))
  · exact fun m => exec_ldF x { s with mem := m }

end Sys2Proof.Machine
end

section
/-! The frame buffer's operations and 00E0 (R180 to R184 of spec/43_display.md): the pixels one DrawByte touches, the
index order of a snapshot, and the cleared screen. -/

namespace Sys2Proof.Machine

/-! ### DrawByte -/

/-- The column bit `b` is drawn on is the one at distance `b` from the start column, around the screen's edge. -/
theorem eq_drawCol_iff {x : Byte} {b : Nat} {c : Fin 64} (hb : b < 8) : c = drawCol x b ↔ bitAt x c = b := by
  have hx : x.toNat < 256 := x.isLt
  rw [Fin.ext_iff, drawCol, Fin.val_ofNat, bitAt]
  omega

/-- A byte has a 1 on a column exactly when one of its eight bits is a 1 drawn there. -/
theorem byteCovers_iff {x d : Byte} {c : Fin 64} :
    byteCovers x d c = true ↔ ∃ b < 8, c = drawCol x b ∧ d.getLsbD (7 - b) = true := by
  rw [byteCovers, Bool.and_eq_true, decide_eq_true_iff]
  constructor
  · rintro ⟨hb, hd⟩
    exact ⟨bitAt x c, hb, (eq_drawCol_iff hb).mpr rfl, hd⟩
  · rintro ⟨b, hb, hc, hd⟩
    obtain rfl := (eq_drawCol_iff hb).mp hc
    exact ⟨hb, hd⟩

/-- DrawByte pixel by pixel: the row's pixels under a 1 bit are inverted, every other is kept (R182). -/
theorem pixel_drawByte (x : Byte) (row : Fin 32) (d : Byte) (g : Vram) (q : Fin 32) (c : Fin 64) :
    pixel (drawByte x row d g).1 q c = (pixel g q c ^^ (decide (q = row) && byteCovers x d c)) := by
  obtain ⟨hpixels, -⟩ := drawBits_spec x row d g 8 le_rfl
  simp only [drawByte, hpixels, ← byteCovers_iff, Bool.decide_and, Bool.decide_eq_true]

/-- DrawByte's signal: a lit pixel of the row met a 1 bit (R182). -/
theorem drawByte_collides_iff (x : Byte) (row : Fin 32) (d : Byte) (g : Vram) :
    (drawByte x row d g).2 = true ↔ ∃ c, pixel g row c = true ∧ byteCovers x d c = true := by
  obtain ⟨-, hsignal⟩ := drawBits_spec x row d g 8 le_rfl
  rw [drawByte, hsignal]
  constructor
  · rintro ⟨b, hb, hd, hlit⟩
    exact ⟨drawCol x b, hlit, byteCovers_iff.mpr ⟨b, hb, rfl, hd⟩⟩
  · rintro ⟨c, hlit, hcover⟩
    obtain ⟨b, hb, rfl, hd⟩ := byteCovers_iff.mp hcover
    exact ⟨b, hb, hd, hlit⟩

/-- Settles O39: bit by bit the eight distinct columns of the byte, read back as the columns it covers. -/
theorem drawByteXorsOneRow : Obligations.DrawByteXorsOneRow := by
  intro x row d g
  exact ⟨pixel_drawByte x row d g, drawByte_collides_iff x row d g⟩

/-! ### Snapshot -/

/-- A snapshot is the rows laid end to end. -/
theorem snapshotOf_eq_toList_flatten (g : Vram) : snapshotOf g = g.flatten.toList := by
  have hrows : (g.toArray.map Vector.toArray).flatten.toList = (g.toList.map Vector.toList).flatten := by
    rw [Array.toList_flatten, Array.toList_map, List.map_map]
    rfl
  exact List.flatMap_def.trans hrows.symm

theorem length_snapshotOf (g : Vram) : (snapshotOf g).length = 2048 := by
  rw [snapshotOf_eq_toList_flatten, Vector.length_toList]

/-- Index 64·y + x of a snapshot is the pixel in column x of row y (R180, R183). -/
theorem getElem?_snapshotOf (g : Vram) (q : Fin 32) (c : Fin 64) :
    (snapshotOf g)[64 * q.val + c.val]? = some (pixel g q c) := by
  have hindex : 64 * q.val + c.val < 32 * 64 := by omega
  have hrow : (64 * q.val + c.val) / 64 = q.val := by omega
  have hcol : (64 * q.val + c.val) % 64 = c.val := by omega
  rw [snapshotOf_eq_toList_flatten, Vector.getElem?_toList, Vector.getElem?_flatten, dif_pos hindex]
  simp only [hrow, hcol, pixel, Fin.getElem_fin]

/-- Settles O42: the event answers the buffer's rows laid end to end, beside the state it was given. -/
theorem snapshotIsTheWholeGrid : Obligations.SnapshotIsTheWholeGrid := by
  intro s
  exact ⟨rfl, snapshotOf s.vram, rfl, length_snapshotOf s.vram, getElem?_snapshotOf s.vram⟩

/-! ### 00E0 -/

theorem exec_cls (s : State) : exec .cls s = .next (advance (setVram s clearVram)) := rfl

/-- A new buffer and the implicit advance leave every other piece of state. -/
theorem frame_advance_setVram (s : State) (g : Vram) : frame [.vram] nowhere nowhere s (advance (setVram s g)) := by
  refine ⟨fun p hp => ?_, fun r _ => rfl, fun a _ => rfl⟩
  cases p with
  | vram => exact absurd List.mem_cons_self hp
  | _ => rfl

/-- Below the top of PC's range the implicit advance does not wrap. -/
theorem toNat_advance_pc {s : State} (h : s.pc.toNat + 2 < 65536) : (advance s).pc.toNat = s.pc.toNat + 2 :=
  BitVec.toNat_add_of_lt h

/-- Settles O38: 00E0 selects its own row, and its execution is the cleared buffer and the advance. -/
theorem clearScreenPutsOutEveryPixel : Obligations.ClearScreenPutsOutEveryPixel := by
  intro s
  refine ⟨decodeWord_of_rowMatch Laws.RowMatch.cls rfl, advance (setVram s clearVram), exec_cls s, ?_, ?_, ?_⟩
  · exact pixel_clearVram
  · exact frame_advance_setVram s clearVram
  · exact toNat_advance_pc

end Sys2Proof.Machine
end

section
/-! Timers (R202, R204, R205, R210, R211 of spec/44_keys_and_timers.md): the three moves between a timer and Vx, the
sound output, and TICK. -/

namespace Sys2Proof.Machine

theorem exec_ldVxDt (x : Reg) (s : State) : exec (.ldVxDt x) s = .next (advance (setV s x s.dt)) := rfl

theorem exec_ldDtVx (x : Reg) (s : State) : exec (.ldDtVx x) s = .next (advance (setDt s (getV s x))) := rfl

theorem exec_ldStVx (x : Reg) (s : State) : exec (.ldStVx x) s = .next (advance (setSt s (getV s x))) := rfl

/-- Natural subtraction stops at 0 just where the timer does (R210). -/
theorem toNat_countDown (u : Byte) : (countDown u).toNat = u.toNat - 1 := by
  unfold countDown
  split
  · exact BitVec.toNat_sub_of_le (y := 1) ‹_›
  · omega

theorem soundActive_iff {s : State} : soundActive s = true ↔ s.st.toNat ≠ 0 := byte_bne_iff_toNat_ne

theorem handle_tick (s : State) : handle .tick s = .next (tickEvent s) := rfl

@[simp] theorem tickEvent_dt (s : State) : (tickEvent s).dt = countDown s.dt := rfl
@[simp] theorem tickEvent_st (s : State) : (tickEvent s).st = countDown s.st := rfl
@[simp] theorem tickEvent_pc (s : State) : (tickEvent s).pc = s.pc := rfl

/-- TICK leaves every other piece of state. -/
theorem frame_tickEvent (s : State) : frame [.dt, .st] nowhere nowhere s (tickEvent s) := by
  refine ⟨fun p hp => ?_, fun r _ => rfl, fun a _ => rfl⟩
  cases p with
  | dt => exact absurd List.mem_cons_self hp
  | st => exact absurd (List.mem_cons_of_mem _ List.mem_cons_self) hp
  | _ => rfl

/-- Settles O47: each timer is counted down as a number, and nothing else is written. -/
theorem tickCountsDownToZero : Obligations.TickCountsDownToZero := by
  intro s
  refine ⟨tickEvent s, handle_tick s, ?_, ?_, tickEvent_pc s, frame_tickEvent s⟩
  · rw [tickEvent_dt, toNat_countDown]
  · rw [tickEvent_st, toNat_countDown]

open Laws

/-- Settles O45: each move's encoding selects its own row, and its execution is one write, to Vx, to DT or to ST. -/
theorem timerMovesCopyTheByte : Obligations.TimerMovesCopyTheByte := by
  intro x s
  refine ⟨⟨?_, ?_⟩, ⟨?_, ?_⟩, ⟨?_, ?_⟩⟩
  · exact decodeWord_of_rowMatch (RowMatch.ldVxDt x) rfl
  · exact ⟨advance (setV s x s.dt), exec_ldVxDt x s, getV_setV_self s x s.dt, setV_dt s x s.dt,
      fun hx => getV_setV_of_ne s s.dt hx.symm⟩
  · exact decodeWord_of_rowMatch (RowMatch.ldDtVx x) rfl
  · refine ⟨advance (setDt s (getV s x)), exec_ldDtVx x s, setDt_dt s (getV s x), getV_setDt s (getV s x), fun hzero => ?_⟩
    rw [tickEvent_dt, advance_dt, setDt_dt, toNat_countDown, hzero]
  · exact decodeWord_of_rowMatch (RowMatch.ldStVx x) rfl
  · exact ⟨advance (setSt s (getV s x)), exec_ldStVx x s, setSt_st s (getV s x), getV_setSt s (getV s x),
      soundActive_iff⟩

end Sys2Proof.Machine
end

section
/-! The decoder's table as a whole (R81 to R88 of spec/30_encoding.md): every instruction is read back from its
encoding, every word that selects a row is encoded again from the fields the row reads, and the words of no row. -/

namespace Sys2Proof

open BitVec Laws

/-! ### From an instruction to its word and back -/

/-- Every instruction's encoding selects the instruction's own row, with the operands in the row's fields. -/
theorem rowMatch : ∀ i : Instr, RowMatch.Statement i
  | .cls => RowMatch.cls
  | .ret => RowMatch.ret
  | .jp nnn => RowMatch.jp nnn
  | .call nnn => RowMatch.call nnn
  | .seImm x kk => RowMatch.seImm x kk
  | .sneImm x kk => RowMatch.sneImm x kk
  | .seReg x y => RowMatch.seReg x y
  | .ldImm x kk => RowMatch.ldImm x kk
  | .addImm x kk => RowMatch.addImm x kk
  | .ldReg x y => RowMatch.ldReg x y
  | .orReg x y => RowMatch.orReg x y
  | .andReg x y => RowMatch.andReg x y
  | .xorReg x y => RowMatch.xorReg x y
  | .addReg x y => RowMatch.addReg x y
  | .sub x y => RowMatch.sub x y
  | .shr x y => RowMatch.shr x y
  | .subn x y => RowMatch.subn x y
  | .shl x y => RowMatch.shl x y
  | .sneReg x y => RowMatch.sneReg x y
  | .ldI nnn => RowMatch.ldI nnn
  | .jpV0 nnn => RowMatch.jpV0 nnn
  | .rnd x kk => RowMatch.rnd x kk
  | .drw x y n => RowMatch.drw x y n
  | .skp x => RowMatch.skp x
  | .sknp x => RowMatch.sknp x
  | .ldVxDt x => RowMatch.ldVxDt x
  | .ldVxK x => RowMatch.ldVxK x
  | .ldDtVx x => RowMatch.ldDtVx x
  | .ldStVx x => RowMatch.ldStVx x
  | .addI x => RowMatch.addI x
  | .ldF x => RowMatch.ldF x
  | .ldB x => RowMatch.ldB x
  | .ldMemVx x => RowMatch.ldMemVx x
  | .ldVxMem x => RowMatch.ldVxMem x

theorem decodeWord_encode (i : Instr) : decodeWord (encode i) = .instr i := decodeWord_of_rowMatch (rowMatch i) rfl

/-- Settles O1: no other row selects the encoding, and cutting it into bytes loses nothing. -/
theorem encodedInstructionDecodesBack : Obligations.EncodedInstructionDecodesBack := by
  intro i
  exact ⟨decodeWord_encode i, (decode_wordBytes (encode i)).trans (decodeWord_encode i)⟩

/-! ### The fields a row's mask keeps -/

/-- `ir[15:12]`, the nibble every row of R84 fixes. -/
def family (ir : Word) : Nibble := ir.extractLsb' 12 4

/-- A word is its family nibble and its `nnn`. -/
theorem family_append_fieldNnn (ir : Word) : family ir ++ fieldNnn ir = ir := by
  rw [family, fieldNnn, extractLsb'_append_extractLsb'_eq_extractLsb' (by decide)]
  exact extractLsb'_eq_self

/-- A word is its family, its `x` and its low byte. -/
theorem family_append_fieldX_fieldKk (ir : Word) : family ir ++ fieldX ir ++ fieldKk ir = ir := by
  rw [family, fieldX, fieldKk, extractLsb'_append_extractLsb'_eq_extractLsb' (by decide),
    extractLsb'_append_extractLsb'_eq_extractLsb' (by decide)]
  exact extractLsb'_eq_self

/-- A word is its four nibbles. -/
theorem family_append_fieldX_fieldY_fieldN (ir : Word) : family ir ++ fieldX ir ++ fieldY ir ++ fieldN ir = ir := by
  rw [family, fieldX, fieldY, fieldN, extractLsb'_append_extractLsb'_eq_extractLsb' (by decide),
    extractLsb'_append_extractLsb'_eq_extractLsb' (by decide),
    extractLsb'_append_extractLsb'_eq_extractLsb' (by decide)]
  exact extractLsb'_eq_self

theorem family_and (ir mask : Word) : family (ir &&& mask) = family ir &&& family mask := extractLsb'_and

theorem fieldN_and (ir mask : Word) : fieldN (ir &&& mask) = fieldN ir &&& fieldN mask := extractLsb'_and

theorem fieldKk_and (ir mask : Word) : fieldKk (ir &&& mask) = fieldKk ir &&& fieldKk mask := extractLsb'_and

/-- Every mask but the full one begins with 0xF, so the family of a masked word is the word's. -/
theorem family_eq_of_and_eq {ir mask pattern : Word} (hmask : family mask = allOnes 4) (h : ir &&& mask = pattern) :
    family ir = family pattern := by
  rw [← h, family_and, hmask, and_allOnes]

theorem fieldN_eq_of_and_eq {ir mask pattern : Word} (hmask : fieldN mask = allOnes 4) (h : ir &&& mask = pattern) :
    fieldN ir = fieldN pattern := by
  rw [← h, fieldN_and, hmask, and_allOnes]

theorem fieldKk_eq_of_and_eq {ir mask pattern : Word} (hmask : fieldKk mask = allOnes 8) (h : ir &&& mask = pattern) :
    fieldKk ir = fieldKk pattern := by
  rw [← h, fieldKk_and, hmask, and_allOnes]

/-! ### From a word to its instruction and back -/

/-- The row encodes again, bit for bit, every word it selects. -/
def OpRow.reencodes (r : OpRow) : Prop := ∀ ir : Word, ir &&& r.mask = r.pattern → encode (r.build ir) = ir

section
variable {pattern : Word}

theorem reencodes_rowFixed {i : Instr} (henc : encode i = pattern) : (rowFixed pattern i).reencodes := by
  intro ir hsel
  have hir : ir = pattern := (and_allOnes (x := ir)).symm.trans hsel
  exact henc.trans hir.symm

theorem reencodes_rowNnn {make : Addr → Instr} (henc : ∀ nnn, encode (make nnn) = family pattern ++ nnn) :
    (rowNnn pattern make).reencodes := by
  intro ir hsel
  have hfam : family ir = family pattern := family_eq_of_and_eq (mask := 0xF000) (by decide) hsel
  have hword := family_append_fieldNnn ir
  rw [hfam] at hword
  exact (henc _).trans hword

theorem reencodes_rowXkk {make : Reg → Byte → Instr} (henc : ∀ x kk, encode (make x kk) = family pattern ++ x ++ kk) :
    (rowXkk pattern make).reencodes := by
  intro ir hsel
  have hfam : family ir = family pattern := family_eq_of_and_eq (mask := 0xF000) (by decide) hsel
  have hword := family_append_fieldX_fieldKk ir
  rw [hfam] at hword
  exact (henc _ _).trans hword

theorem reencodes_rowXyn {make : Reg → Reg → Nibble → Instr}
    (henc : ∀ x y n, encode (make x y n) = family pattern ++ x ++ y ++ n) : (rowXyn pattern make).reencodes := by
  intro ir hsel
  have hfam : family ir = family pattern := family_eq_of_and_eq (mask := 0xF000) (by decide) hsel
  have hword := family_append_fieldX_fieldY_fieldN ir
  rw [hfam] at hword
  exact (henc _ _ _).trans hword

theorem reencodes_rowXys {make : Reg → Reg → Instr}
    (henc : ∀ x y, encode (make x y) = family pattern ++ x ++ y ++ fieldN pattern) :
    (rowXys pattern make).reencodes := by
  intro ir hsel
  have hfam : family ir = family pattern := family_eq_of_and_eq (mask := 0xF00F) (by decide) hsel
  have hlow : fieldN ir = fieldN pattern := fieldN_eq_of_and_eq (mask := 0xF00F) (by decide) hsel
  have hword := family_append_fieldX_fieldY_fieldN ir
  rw [hfam, hlow] at hword
  exact (henc _ _).trans hword

theorem reencodes_rowXss {make : Reg → Instr} (henc : ∀ x, encode (make x) = family pattern ++ x ++ fieldKk pattern) :
    (rowXss pattern make).reencodes := by
  intro ir hsel
  have hfam : family ir = family pattern := family_eq_of_and_eq (mask := 0xF0FF) (by decide) hsel
  have hbyte : fieldKk ir = fieldKk pattern := fieldKk_eq_of_and_eq (mask := 0xF0FF) (by decide) hsel
  have hword := family_append_fieldX_fieldKk ir
  rw [hfam, hbyte] at hword
  exact (henc _).trans hword

end

/-- Row by row: the encoder puts the row's fixed fields around the operands. -/
theorem reencodes_of_mem_opcodeTable : ∀ r ∈ opcodeTable, r.reencodes := by
  simp only [opcodeTable, List.cons_append, List.nil_append, List.forall_mem_cons]
  exact ⟨reencodes_rowFixed rfl, reencodes_rowFixed rfl, reencodes_rowNnn (fun _ => rfl),
    reencodes_rowNnn (fun _ => rfl), reencodes_rowXkk (fun _ _ => rfl), reencodes_rowXkk (fun _ _ => rfl),
    reencodes_rowXys (fun _ _ => rfl), reencodes_rowXkk (fun _ _ => rfl), reencodes_rowXkk (fun _ _ => rfl),
    reencodes_rowXys (fun _ _ => rfl), reencodes_rowXys (fun _ _ => rfl), reencodes_rowXys (fun _ _ => rfl),
    reencodes_rowXys (fun _ _ => rfl), reencodes_rowXys (fun _ _ => rfl), reencodes_rowXys (fun _ _ => rfl),
    reencodes_rowXys (fun _ _ => rfl), reencodes_rowXys (fun _ _ => rfl), reencodes_rowXys (fun _ _ => rfl),
    reencodes_rowXys (fun _ _ => rfl), reencodes_rowNnn (fun _ => rfl), reencodes_rowNnn (fun _ => rfl),
    reencodes_rowXkk (fun _ _ => rfl), reencodes_rowXyn (fun _ _ _ => rfl), reencodes_rowXss (fun _ => rfl),
    reencodes_rowXss (fun _ => rfl), reencodes_rowXss (fun _ => rfl), reencodes_rowXss (fun _ => rfl),
    reencodes_rowXss (fun _ => rfl), reencodes_rowXss (fun _ => rfl), reencodes_rowXss (fun _ => rfl),
    reencodes_rowXss (fun _ => rfl), reencodes_rowXss (fun _ => rfl), reencodes_rowXss (fun _ => rfl),
    reencodes_rowXss (fun _ => rfl), List.forall_mem_nil _⟩

/-- A word that decodes to an instruction selects the row that built it. -/
theorem exists_row_of_decodeWord {ir : Word} {i : Instr} (h : decodeWord ir = .instr i) :
    ∃ r ∈ opcodeTable, r.selects ir = true ∧ r.build ir = i := by
  unfold decodeWord at h
  split at h
  · next r hfind =>
    exact ⟨r, List.mem_of_find?_eq_some hfind, List.find?_some (p := (OpRow.selects · ir)) hfind, Decoded.instr.inj h⟩
  · cases h

/-- Settles O2: the word selects a row, and every row encodes again the words it selects. -/
theorem decodedWordIsItsEncoding : Obligations.DecodedWordIsItsEncoding := by
  intro ir i h
  obtain ⟨r, hmem, hsel, rfl⟩ := exists_row_of_decodeWord h
  exact reencodes_of_mem_opcodeTable r hmem ir (beq_iff_eq.mp hsel)

/-! ### The rows of the table, and the words of none -/

theorem OpRow.selects_iff {r : OpRow} {ir : Word} : r.selects ir = true ↔ ir &&& r.mask = r.pattern := beq_iff_eq

/-- In a well-formed table no word selects two rows. -/
theorem pairwise_of_tableWf {rows : List OpRow} (hwf : tableWf rows = true) :
    rows.Pairwise fun r q => ∀ ir : Word, ¬ (ir &&& r.mask = r.pattern ∧ ir &&& q.mask = q.pattern) := by
  induction rows with
  | nil => exact .nil
  | cons r rest ih =>
    simp only [tableWf, Bool.and_eq_true, List.all_eq_true] at hwf
    obtain ⟨⟨-, hdisj⟩, hrest⟩ := hwf
    refine .cons (fun q hq ir hboth => ?_) (ih hrest)
    have hr := OpRow.not_selects_of_disjoint (hdisj q hq) (OpRow.selects_iff.mpr hboth.2)
    exact absurd (OpRow.selects_iff.mpr hboth.1) (by rw [hr]; decide)

/-- The decoder answers `unmatched` for the words that select no row, and for no others (R88). -/
theorem decodeWord_eq_unmatched_iff {ir : Word} :
    decodeWord ir = .unmatched ir ↔ ∀ r ∈ opcodeTable, ir &&& r.mask ≠ r.pattern := by
  constructor
  · intro h r hmem hsel
    rw [decodeWord_of_selects hmem (OpRow.selects_iff.mpr hsel)] at h
    cases h
  · intro h
    have hnone : opcodeTable.find? (·.selects ir) = none :=
      List.find?_eq_none.mpr fun r hmem hsel => h r hmem (OpRow.selects_iff.mp hsel)
    unfold decodeWord
    rw [hnone]

/-- Settles O3: the masks are the formats', the table is well formed, and the lookup finds the row there is. -/
theorem decodingSelectsTheMatchingRow : Obligations.DecodingSelectsTheMatchingRow := by
  refine ⟨rfl, pairwise_of_tableWf opcodeTable_wf, fun ir => ⟨fun r hmem hsel => ?_, ?_⟩⟩
  · exact decodeWord_of_selects hmem (OpRow.selects_iff.mpr hsel)
  · exact decodeWord_eq_unmatched_iff.mpr

theorem toNat_family (ir : Word) : (family ir).toNat = ir.toNat / 4096 := by
  rw [family, extractLsb'_toNat, Nat.shiftRight_eq_div_pow]
  omega

theorem toNat_fieldN (ir : Word) : (fieldN ir).toNat = ir.toNat % 16 := by
  rw [fieldN, extractLsb'_toNat]
  rfl

theorem toNat_fieldKk (ir : Word) : (fieldKk ir).toNat = ir.toNat % 256 := by
  rw [fieldKk, extractLsb'_toNat]
  rfl

/-- A word selects a row of format NNN, XKK or XYN by its family alone. -/
theorem and_F000_eq_iff {ir pattern : Word} (hpat : pattern &&& 0xF000 = pattern) :
    ir &&& 0xF000 = pattern ↔ ir.toNat / 4096 = pattern.toNat / 4096 := by
  rw [← toNat_family, ← toNat_family, toNat_inj]
  refine ⟨family_eq_of_and_eq (by decide), fun h => ?_⟩
  have hmasked (w : Word) : w &&& 0xF000 = family w ++ 0#12 := by
    rw [← mask_nnn (family w) (fieldNnn w), family_append_fieldNnn]
    rfl
  rw [← hpat, hmasked, hmasked, h]

/-- A word selects a row of format XYS by its family and its low nibble. -/
theorem and_F00F_eq_iff {ir pattern : Word} (hpat : pattern &&& 0xF00F = pattern) :
    ir &&& 0xF00F = pattern ↔ ir.toNat / 4096 = pattern.toNat / 4096 ∧ ir.toNat % 16 = pattern.toNat % 16 := by
  rw [← toNat_family, ← toNat_family, toNat_inj, ← toNat_fieldN, ← toNat_fieldN, toNat_inj]
  refine ⟨fun h => ⟨family_eq_of_and_eq (by decide) h, fieldN_eq_of_and_eq (by decide) h⟩, fun ⟨hfam, hn⟩ => ?_⟩
  have hmasked (w : Word) : w &&& 0xF00F = family w ++ 0#4 ++ 0#4 ++ fieldN w := by
    rw [← mask_xys (family w) (fieldX w) (fieldY w) (fieldN w), family_append_fieldX_fieldY_fieldN]
    rfl
  rw [← hpat, hmasked, hmasked, hfam, hn]

/-- A word selects a row of format XSS by its family and its low byte. -/
theorem and_F0FF_eq_iff {ir pattern : Word} (hpat : pattern &&& 0xF0FF = pattern) :
    ir &&& 0xF0FF = pattern ↔ ir.toNat / 4096 = pattern.toNat / 4096 ∧ ir.toNat % 256 = pattern.toNat % 256 := by
  rw [← toNat_family, ← toNat_family, toNat_inj, ← toNat_fieldKk, ← toNat_fieldKk, toNat_inj]
  refine ⟨fun h => ⟨family_eq_of_and_eq (by decide) h, fieldKk_eq_of_and_eq (by decide) h⟩, fun ⟨hfam, hkk⟩ => ?_⟩
  have hmasked (w : Word) : w &&& 0xF0FF = family w ++ 0#4 ++ fieldKk w := by
    rw [← mask_xss (family w) (fieldX w) (fieldKk w), family_append_fieldX_fieldKk]
    rfl
  rw [← hpat, hmasked, hmasked, hfam, hkk]

theorem and_FFFF_eq (ir : Word) : ir &&& 0xFFFF = ir := and_allOnes

/-- Settles O4: row by row, selecting a word is a fact about its family and its low nibble or byte; in each of the
sixteen families the rows leave out exactly what R88 lists. -/
theorem unmatchedWordsAreExactlyThese : Obligations.UnmatchedWordsAreExactlyThese := by
  intro ir
  rw [decodeWord_eq_unmatched_iff]
  simp (disch := decide) only [opcodeTable, List.cons_append, List.nil_append, List.forall_mem_cons, rowFixed, rowNnn,
    rowXkk, rowXys, rowXyn, rowXss, ne_eq, and_F000_eq_iff, and_F00F_eq_iff, and_F0FF_eq_iff, and_FFFF_eq]
  rw [← toNat_inj (x := ir) (y := 0x00E0), ← toNat_inj (x := ir) (y := 0x00EE)]
  have hfamily : ir.toNat / 4096 < 16 := by omega
  generalize hF : ir.toNat / 4096 = F at hfamily ⊢
  interval_cases F <;> simp <;> omega

/-- Settles O5, word by word. -/
theorem wordsOfTheSpecDecode : Obligations.WordsOfTheSpecDecode := by
  unfold Obligations.WordsOfTheSpecDecode
  decide

end Sys2Proof
end

section
/-! The state every instruction answers (R102, R230): no instruction and no step ends in anything but a next state, so a
function gives it, and the rules below speak of that function. -/

namespace Sys2Proof.Machine

/-- The state after an instruction; `exec_eq_after` says that `exec` answers no other. -/
def after (i : Instr) (s : State) : State :=
  match exec i s with
  | .next t => t
  | _ => s

/-- Every arm of `exec` is a next state. -/
theorem exec_eq_after (i : Instr) (s : State) : exec i s = .next (after i s) := by
  cases i <;> rfl

theorem eq_after_of_exec {i : Instr} {s t : State} (h : exec i s = .next t) : t = after i s := by
  rw [exec_eq_after] at h
  exact (Host.Outcome.next.inj h).symm

/-- While a key-wait is pending the gate of R100 is shut. -/
theorem step_of_wait_eq_some {s : State} {r : Reg} (h : s.wait = some r) : step s = .next s := by
  unfold step cycle
  rw [h]

theorem step_of_decodeNext_eq_instr {s : State} {i : Instr} (hwait : s.wait = none) (hdec : decodeNext s = .instr i) :
    step s = .next (after i s) := by
  rw [step_of_wait_eq_none hwait, hdec]
  exact exec_eq_after i s

theorem step_of_decodeNext_eq_unmatched {s : State} {w : Word} (hwait : s.wait = none)
    (hdec : decodeNext s = .unmatched w) : step s = .next (advance s) := by
  rw [step_of_wait_eq_none hwait, hdec]
  rfl

theorem exists_step_eq_next (s : State) : ∃ t, step s = .next t := by
  cases hwait : s.wait with
  | some r => exact ⟨s, step_of_wait_eq_some hwait⟩
  | none =>
    cases hdec : decodeNext s with
    | instr i => exact ⟨after i s, step_of_decodeNext_eq_instr hwait hdec⟩
    | unmatched w => exact ⟨advance s, step_of_decodeNext_eq_unmatched hwait hdec⟩

/-- Settles O10: an instruction's state is `after`'s, and a step's is that, the advanced one or the old one. -/
theorem everyInstructionExecutesToCompletion : Obligations.EveryInstructionExecutesToCompletion :=
  ⟨fun i s => ⟨after i s, exec_eq_after i s⟩, exists_step_eq_next⟩

/-- Settles O7: with the gate open the step is `execDecoded` of what the two bytes decode to. -/
theorem stepRunsTheDecodedInstruction : Obligations.StepRunsTheDecodedInstruction := by
  intro s i hwait hdec
  rw [step_of_wait_eq_none hwait]
  exact congrArg (execDecoded · s) hdec

/-- Settles O8: the implicit advance, written out, is PC + 2 and the rest as it was. -/
theorem unmatchedWordOnlyAdvancesPc : Obligations.UnmatchedWordOnlyAdvancesPc := by
  intro s w hwait hdec
  exact step_of_decodeNext_eq_unmatched hwait hdec

/-- Settles O9: the gate of R100. -/
theorem stepWhileWaitingChangesNothing : Obligations.StepWhileWaitingChangesNothing := by
  intro s r hwait
  exact step_of_wait_eq_some hwait

/-- Settles O12: the jump stores in PC the address PC already holds. -/
theorem selfJumpIsAFixedPoint : Obligations.SelfJumpIsAFixedPoint := by
  rintro s ⟨hwait, nnn, hdec, hpc⟩
  rw [step_of_decodeNext_eq_instr hwait hdec]
  show Host.Outcome.next (setPc s (addrOperand nnn)) = .next s
  rw [← hpc, setPc_self]

end Sys2Proof.Machine
end

section
/-! What each instruction leaves as it was (R28 of spec/10_state.md; D1, log 10): one rule of the frame per update of
the state, and every instruction as a chain of updates. -/

namespace Sys2Proof.Machine

/-! ### One rule per update -/

section
variable {P : List Part} {R : Reg → Prop} {M : Nat → Prop} {s t u : State}

theorem same_trans {p : Part} (hst : p.same s t) (htu : p.same t u) : p.same s u := by
  cases p <;> exact htu.trans hst

theorem frame_trans (hst : frame P R M s t) (htu : frame P R M t u) : frame P R M s u := by
  obtain ⟨hparts, hregs, hmem⟩ := hst
  obtain ⟨hparts', hregs', hmem'⟩ := htu
  exact ⟨fun p hp => same_trans (hparts p hp) (hparts' p hp), fun r hr => (hregs' r hr).trans (hregs r hr),
    fun a ha => (hmem' a ha).trans (hmem a ha)⟩

theorem frame_refl : frame P R M s s := ⟨fun p _ => by cases p <;> rfl, fun _ _ => rfl, fun _ _ => rfl⟩

theorem frame_setPc {w : Word} : frame P R M s (setPc s w) :=
  ⟨fun p _ => by cases p <;> rfl, fun _ _ => rfl, fun _ _ => rfl⟩

theorem frame_setV {x : Reg} {b : Byte} (hx : R x) : frame P R M s (setV s x b) :=
  ⟨fun p _ => by cases p <;> rfl, fun _ hr => getV_setV_of_ne s b fun e => hr (e ▸ hx), fun _ _ => rfl⟩

theorem frame_memWrite {a : Nat} {b : Byte} (ha : M (a % Config.memSize)) : frame P R M s (memWrite s a b) :=
  ⟨fun p _ => by cases p <;> rfl, fun _ _ => rfl, fun _ hb => memRead_memWrite_of_ne s b fun e => hb (e ▸ ha)⟩

theorem frame_setI {w : Word} (hp : Part.i ∈ P) : frame P R M s (setI s w) :=
  ⟨fun p hq => by cases p with | i => exact absurd hp hq | _ => rfl, fun _ _ => rfl, fun _ _ => rfl⟩

theorem frame_setSp {b : Byte} (hp : Part.sp ∈ P) : frame P R M s (setSp s b) :=
  ⟨fun p hq => by cases p with | sp => exact absurd hp hq | _ => rfl, fun _ _ => rfl, fun _ _ => rfl⟩

theorem frame_setDt {b : Byte} (hp : Part.dt ∈ P) : frame P R M s (setDt s b) :=
  ⟨fun p hq => by cases p with | dt => exact absurd hp hq | _ => rfl, fun _ _ => rfl, fun _ _ => rfl⟩

theorem frame_setSt {b : Byte} (hp : Part.st ∈ P) : frame P R M s (setSt s b) :=
  ⟨fun p hq => by cases p with | st => exact absurd hp hq | _ => rfl, fun _ _ => rfl, fun _ _ => rfl⟩

theorem frame_setKey {k : Nibble} {down : Bool} (hp : Part.key ∈ P) : frame P R M s (setKey s k down) :=
  ⟨fun p hq => by cases p with | key => exact absurd hp hq | _ => rfl, fun _ _ => rfl, fun _ _ => rfl⟩

theorem frame_setWait {w : Option Reg} (hp : Part.wait ∈ P) : frame P R M s (setWait s w) :=
  ⟨fun p hq => by cases p with | wait => exact absurd hp hq | _ => rfl, fun _ _ => rfl, fun _ _ => rfl⟩

theorem frame_setVram {g : Vram} (hp : Part.vram ∈ P) : frame P R M s (setVram s g) :=
  ⟨fun p hq => by cases p with | vram => exact absurd hp hq | _ => rfl, fun _ _ => rfl, fun _ _ => rfl⟩

theorem frame_rndDrawn (hp : Part.draws ∈ P) : frame P R M s (rndDrawn s) :=
  ⟨fun p hq => by cases p with | draws => exact absurd hp hq | _ => rfl, fun _ _ => rfl, fun _ _ => rfl⟩

/-! ### The operations made of several updates -/

theorem frame_push {b : Byte} (hp : Part.sp ∈ P) (ha : M ((stackBase + s.sp.toNat) % Config.memSize)) :
    frame P R M s (push s b) :=
  frame_trans (frame_memWrite ha) (frame_setSp hp)

theorem frame_pop (hp : Part.sp ∈ P) : frame P R M s (pop s).1 := frame_setSp hp

theorem frame_resultThenFlag {x : Reg} {b : Byte} {flag : Bool} (hx : R x) (hf : R regF) :
    frame P R M s (resultThenFlag s x b flag) :=
  frame_trans (frame_setV hx) (frame_setV hf)

theorem frame_flagThenResult {x : Reg} {b : Byte} {flag : Bool} (hx : R x) (hf : R regF) :
    frame P R M s (flagThenResult s x flag b) :=
  frame_trans (frame_setV hf) (frame_setV hx)

theorem frame_storeRegs {k : Nat} (ha : ∀ j < k, M (indexAddr s j % Config.memSize)) :
    frame P R M s (storeRegs s k) := by
  induction k with
  | zero => exact frame_refl
  | succ k ih => exact frame_trans (ih fun j hj => ha j (by omega)) (frame_memWrite (ha k (by omega)))

theorem frame_loadRegs {k : Nat} (hr : ∀ j < k, R (BitVec.ofNat 4 j)) : frame P R M s (loadRegs s k) := by
  induction k with
  | zero => exact frame_refl
  | succ k ih => exact frame_trans (ih fun j hj => hr j (by omega)) (frame_setV (hr k (by omega)))

end

/-! ### Every instruction -/

/-- The pieces of state outside V, PC and MEM that an instruction may write (spec/10_state.md section 1). -/
def writtenParts : Instr → List Part
  | .ret | .call _ => [.sp]
  | .ldI _ | .addI _ | .ldF _ => [.i]
  | .cls | .drw _ _ _ => [.vram]
  | .ldVxK _ => [.wait]
  | .ldDtVx _ => [.dt]
  | .ldStVx _ => [.st]
  | .rnd _ _ => [.draws]
  | _ => []

/-- The registers an instruction may write. -/
def writtenRegs : Instr → Reg → Prop
  | .ldImm x _ | .addImm x _ | .ldReg x _ | .orReg x _ | .andReg x _ | .xorReg x _ | .rnd x _ | .ldVxDt x => (· = x)
  | .addReg x _ | .sub x _ | .shr x _ | .subn x _ | .shl x _ => fun r => r = x ∨ r = 15
  | .drw _ _ _ => (· = 15)
  | .ldVxMem x => fun r => r.toNat ≤ x.toNat
  | _ => nowhere

/-- The addresses an instruction may store at, from a state. -/
def storedAt (s : State) : Instr → Nat → Prop
  | .call _ => fun b => b = (stackBase + s.sp.toNat) % 4096 ∨ b = (stackBase + (s.sp - 1).toNat) % 4096
  | .ldB _ => fun b => ∃ k < 3, b = indexAddr s k % 4096
  | .ldMemVx x => fun b => ∃ k ≤ x.toNat, b = indexAddr s k % 4096
  | _ => nowhere

/-- An instruction writes no more than its table entries say. -/
theorem frame_after (i : Instr) (s : State) : frame (writtenParts i) (writtenRegs i) (storedAt s i) s (after i s) := by
  cases i with
  | ret =>
    exact frame_trans (frame_trans (frame_pop List.mem_cons_self) (frame_pop List.mem_cons_self)) frame_setPc
  | call =>
    refine frame_trans (frame_trans ?_ (frame_push List.mem_cons_self (.inr rfl))) frame_setPc
    exact frame_push List.mem_cons_self (.inl rfl)
  | jp | jpV0 | seImm | sneImm | seReg | sneReg | skp | sknp => exact frame_setPc
  | ldImm | addImm | ldReg | orReg | andReg | xorReg | ldVxDt => exact frame_trans (frame_setV rfl) frame_setPc
  | addReg | sub | subn => exact frame_trans (frame_resultThenFlag (.inl rfl) (.inr rfl)) frame_setPc
  | shr | shl => exact frame_trans (frame_flagThenResult (.inl rfl) (.inr rfl)) frame_setPc
  | rnd => exact frame_trans (frame_trans (frame_setV rfl) (frame_rndDrawn List.mem_cons_self)) frame_setPc
  | ldI | addI | ldF => exact frame_trans (frame_setI List.mem_cons_self) frame_setPc
  | cls => exact frame_trans (frame_setVram List.mem_cons_self) frame_setPc
  | drw => exact frame_trans (frame_trans (frame_setVram List.mem_cons_self) (frame_setV rfl)) frame_setPc
  | ldVxK => exact frame_trans (frame_setWait List.mem_cons_self) frame_setPc
  | ldDtVx => exact frame_trans (frame_setDt List.mem_cons_self) frame_setPc
  | ldStVx => exact frame_trans (frame_setSt List.mem_cons_self) frame_setPc
  | ldB =>
    exact frame_trans (frame_trans (frame_trans (frame_memWrite ⟨0, by decide, rfl⟩)
      (frame_memWrite ⟨1, by decide, rfl⟩)) (frame_memWrite ⟨2, by decide, rfl⟩)) frame_setPc
  | ldMemVx => exact frame_trans (frame_storeRegs fun j hj => ⟨j, Nat.le_of_lt_succ hj, rfl⟩) frame_setPc
  | ldVxMem x =>
    refine frame_trans (frame_loadRegs fun j hj => ?_) frame_setPc
    exact (BitVec.toNat_ofNat j 4).trans_le ((Nat.mod_le _ _).trans (Nat.le_of_lt_succ hj))

theorem exec_frame (i : Instr) (s : State) :
    ∃ t, exec i s = .next t ∧ frame (writtenParts i) (writtenRegs i) (storedAt s i) s t :=
  ⟨after i s, exec_eq_after i s, frame_after i s⟩

/-- Settles O54: the entries of `frame_after` for the control transfers. -/
theorem frameOfControlTransfer : Obligations.FrameOfControlTransfer := by
  intro x y kk nnn s
  exact ⟨exec_frame .ret s, exec_frame (.jp nnn) s, exec_frame (.call nnn) s, exec_frame (.jpV0 nnn) s,
    exec_frame (.seImm x kk) s, exec_frame (.sneImm x kk) s, exec_frame (.seReg x y) s, exec_frame (.sneReg x y) s⟩

/-- Settles O55: the entries of `frame_after` for the ALU. -/
theorem frameOfAlu : Obligations.FrameOfAlu := by
  intro x y kk s
  exact ⟨exec_frame (.ldImm x kk) s, exec_frame (.addImm x kk) s, exec_frame (.ldReg x y) s, exec_frame (.orReg x y) s,
    exec_frame (.andReg x y) s, exec_frame (.xorReg x y) s, exec_frame (.addReg x y) s, exec_frame (.sub x y) s,
    exec_frame (.shr x y) s, exec_frame (.subn x y) s, exec_frame (.shl x y) s, exec_frame (.rnd x kk) s⟩

/-- Settles O56: the entries of `frame_after` for the index register, the stores and the load. -/
theorem frameOfIndexAndMemory : Obligations.FrameOfIndexAndMemory := by
  intro x nnn s
  exact ⟨exec_frame (.ldI nnn) s, exec_frame (.addI x) s, exec_frame (.ldF x) s, exec_frame (.ldB x) s,
    exec_frame (.ldMemVx x) s, exec_frame (.ldVxMem x) s⟩

/-- Settles O57: the entries of `frame_after` for the display, the keys and the timers. -/
theorem frameOfDisplayKeysAndTimers : Obligations.FrameOfDisplayKeysAndTimers := by
  intro x y n s
  exact ⟨exec_frame .cls s, exec_frame (.drw x y n) s, exec_frame (.skp x) s, exec_frame (.sknp x) s,
    exec_frame (.ldVxDt x) s, exec_frame (.ldVxK x) s, exec_frame (.ldDtVx x) s, exec_frame (.ldStVx x) s⟩

end Sys2Proof.Machine
end

section
/-! PC, memory and the rest of the state after an instruction and after a step (R113 of
spec/40_step_and_control_flow.md, the "written by" column of spec/10_state.md section 1): which instruction changed
what, and the canonical form of memory kept by all of them. -/

namespace Sys2Proof.Machine

/-! ### PC -/

theorem keySelect_eq (u : Byte) : keySelect u = BitVec.ofNat 4 (u.toNat % 16) := by
  apply BitVec.eq_of_toNat_eq
  rw [keySelect, BitVec.toNat_setWidth, BitVec.toNat_ofNat, Nat.mod_mod]

/-- The two pops of RET read one and two bytes above the old SP (R103). -/
theorem after_ret_pc (s : State) :
    (after .ret s).pc = memRead s (0x100 + (s.sp + 1).toNat) ++ memRead s (0x100 + (s.sp + 2).toNat) := by
  have hsp : s.sp + 1 + 1 = s.sp + 2 := BitVec.add_assoc s.sp 1 1
  rw [← hsp]
  rfl

theorem skipIf_pc_of_iff {s : State} {taken : Bool} {c : Prop} [Decidable c] (h : taken = true ↔ c) :
    (skipIf s taken).pc = if c then s.pc + 4 else s.pc + 2 := if_congr h rfl rfl

/-- The table of R113. -/
theorem after_pc (i : Instr) (s : State) : (after i s).pc = pcAfter i s := by
  cases i with
  | ret => exact after_ret_pc s
  | seImm | seReg => exact skipIf_pc_of_iff beq_iff_eq
  | sneImm | sneReg => exact skipIf_pc_of_iff bne_iff_ne
  | skp x => exact skipIf_pc_of_iff (by rw [keySelect_eq])
  | sknp x => exact skipIf_pc_of_iff (by rw [keySelect_eq, Bool.not_eq_true'])
  | ldMemVx x => exact congrArg (· + 2) (storeRegs_pc s _)
  | ldVxMem x => exact congrArg (· + 2) (loadRegs_pc s _)
  | _ => rfl

/-- Settles O11: the jumps store their target, the skips choose by their flag, the others take the implicit advance. -/
theorem pcAfterEveryInstruction : Obligations.PcAfterEveryInstruction := by
  intro i s
  exact ⟨after i s, exec_eq_after i s, after_pc i s⟩

/-! ### Memory -/

/-- The three instructions that store (spec/10_state.md section 1, MEM). -/
def storesMemory : Instr → Bool
  | .call _ | .ldB _ | .ldMemVx _ => true
  | _ => false

theorem after_mem_of_not_stores {i : Instr} (h : storesMemory i = false) (s : State) : (after i s).mem = s.mem := by
  cases i with
  | call | ldB | ldMemVx => cases h
  | ldVxMem x => exact loadRegs_mem s _
  | _ => rfl

theorem wf_after {s : State} (i : Instr) (h : s.mem.wf) : (after i s).mem.wf := by
  cases i with
  | call nnn => exact wf_push _ (wf_push _ h)
  | ldB x => exact wf_memWrite _ _ (wf_memWrite _ _ (wf_memWrite _ _ h))
  | ldMemVx x => exact wf_storeRegs _ h
  | _ => rw [after_mem_of_not_stores rfl]; exact h

/-- Settles O13: a step leaves memory or executes one instruction, and the stores keep the form. -/
theorem stepKeepsMemoryCanonical : Obligations.StepKeepsMemoryCanonical := by
  intro s t hwf hstep
  obtain ⟨-, -, rfl⟩ | ⟨-, i, -, hexec⟩ | ⟨-, -, -, rfl⟩ := step_cases hstep
  · exact hwf
  · rw [eq_after_of_exec hexec]
    exact wf_after i hwf
  · exact hwf

/-! ### Which instruction changed a piece of state -/

/-- The "written by" column of spec/10_state.md section 1, of what the bytes at PC decode to; `draws`, the model's own,
is written by Cxkk. -/
def namedWriter (p : Part) (d : Decoded) : Prop :=
  match p with
  | .i => ∃ nnn x, d = .instr (.ldI nnn) ∨ d = .instr (.addI x) ∨ d = .instr (.ldF x)
  | .sp => d = .instr .ret ∨ ∃ nnn, d = .instr (.call nnn)
  | .dt => ∃ x, d = .instr (.ldDtVx x)
  | .st => ∃ x, d = .instr (.ldStVx x)
  | .key => False
  | .wait => ∃ x, d = .instr (.ldVxK x)
  | .vram => d = .instr .cls ∨ ∃ x y n, d = .instr (.drw x y n)
  | .draws => ∃ x kk, d = .instr (.rnd x kk)

theorem namedWriter_of_mem_writtenParts {p : Part} {i : Instr} (h : p ∈ writtenParts i) : namedWriter p (.instr i) := by
  cases i with
  | ret => obtain rfl := List.mem_singleton.mp h; exact .inl rfl
  | call nnn => obtain rfl := List.mem_singleton.mp h; exact .inr ⟨nnn, rfl⟩
  | ldI nnn => obtain rfl := List.mem_singleton.mp h; exact ⟨nnn, 0, .inl rfl⟩
  | addI x => obtain rfl := List.mem_singleton.mp h; exact ⟨0, x, .inr (.inl rfl)⟩
  | ldF x => obtain rfl := List.mem_singleton.mp h; exact ⟨0, x, .inr (.inr rfl)⟩
  | cls => obtain rfl := List.mem_singleton.mp h; exact .inl rfl
  | drw x y n => obtain rfl := List.mem_singleton.mp h; exact .inr ⟨x, y, n, rfl⟩
  | ldDtVx x | ldStVx x | ldVxK x => obtain rfl := List.mem_singleton.mp h; exact ⟨x, rfl⟩
  | rnd x kk => obtain rfl := List.mem_singleton.mp h; exact ⟨x, kk, rfl⟩
  | _ => exact absurd h List.not_mem_nil

/-- The three stores of the column's MEM row. -/
theorem instr_of_storesMemory {i : Instr} (h : storesMemory i = true) :
    ∃ nnn x, i = .call nnn ∨ i = .ldB x ∨ i = .ldMemVx x := by
  cases i with
  | call nnn => exact ⟨nnn, 0, .inl rfl⟩
  | ldB x => exact ⟨0, x, .inr (.inl rfl)⟩
  | ldMemVx x => exact ⟨0, x, .inr (.inr rfl)⟩
  | _ => cases h

/-- A step leaves every piece outside V and PC, or it was one instruction with no key-wait pending. -/
theorem step_keeps_or_executes {s t : State} (h : step s = .next t) :
    (∀ p : Part, p.same s t) ∧ t.mem = s.mem ∨ s.wait = none ∧ ∃ i, decodeNext s = .instr i ∧ t = after i s := by
  obtain ⟨-, -, rfl⟩ | ⟨hwait, i, hdec, hexec⟩ | ⟨-, -, -, rfl⟩ := step_cases h
  · exact .inl ⟨fun p => by cases p <;> rfl, rfl⟩
  · exact .inr ⟨hwait, i, hdec, eq_after_of_exec hexec⟩
  · exact .inl ⟨fun p => by cases p <;> rfl, rfl⟩

theorem namedWriter_of_step_changed {s t : State} {p : Part} (h : step s = .next t) (hp : ¬ p.same s t) :
    namedWriter p (decodeNext s) := by
  obtain ⟨hsame, -⟩ | ⟨-, i, hdec, rfl⟩ := step_keeps_or_executes h
  · exact absurd (hsame p) hp
  · obtain ⟨hparts, -, -⟩ := frame_after i s
    rw [hdec]
    exact namedWriter_of_mem_writtenParts (by_contra fun hmem => hp (hparts p hmem))

theorem wait_of_step_changed {s t : State} (h : step s = .next t) (hne : t.wait ≠ s.wait) :
    s.wait = none ∧ ∃ x, decodeNext s = .instr (.ldVxK x) ∧ t.wait = some x := by
  obtain ⟨x, hdec⟩ := namedWriter_of_step_changed (p := .wait) h hne
  obtain ⟨hsame, -⟩ | ⟨hwait, i, hi, rfl⟩ := step_keeps_or_executes h
  · exact absurd (hsame .wait) hne
  · obtain rfl := Decoded.instr.inj (hdec.symm.trans hi)
    exact ⟨hwait, x, hdec, rfl⟩

theorem store_of_step_changed {s t : State} (h : step s = .next t) (hne : t.mem ≠ s.mem) :
    ∃ nnn x, decodeNext s = .instr (.call nnn) ∨ decodeNext s = .instr (.ldB x) ∨
      decodeNext s = .instr (.ldMemVx x) := by
  obtain ⟨-, hsame⟩ | ⟨-, i, hdec, rfl⟩ := step_keeps_or_executes h
  · exact absurd hsame hne
  · have hstores : storesMemory i = true :=
      by_contra fun hnot => hne (after_mem_of_not_stores (Bool.eq_false_of_not_eq_true hnot) s)
    simpa [hdec] using instr_of_storesMemory hstores

/-- Settles O58: a piece that changed has a named writer, and KEY has none. -/
theorem stepChangesStateOnlyAsTheTableSays : Obligations.StepChangesStateOnlyAsTheTableSays := by
  intro s t hstep
  exact ⟨by_contra (namedWriter_of_step_changed (p := .key) hstep), namedWriter_of_step_changed (p := .i) hstep,
    namedWriter_of_step_changed (p := .sp) hstep, namedWriter_of_step_changed (p := .dt) hstep,
    namedWriter_of_step_changed (p := .st) hstep, wait_of_step_changed hstep,
    namedWriter_of_step_changed (p := .vram) hstep, store_of_step_changed hstep⟩

end Sys2Proof.Machine
end

section
/-! Memory and the stack (spec/20_memory.md): a byte read back, LOAD's run of bytes, and the stack as a last-in,
first-out list. -/

namespace Sys2Proof.Machine

/-- Settles O18: the two laws of MemRead after MemWrite, by whether the addresses agree modulo 4096. -/
theorem memoryReadsBackModulo4096 : Obligations.MemoryReadsBackModulo4096 := by
  intro s a b u hwf
  by_cases h : b % 4096 = a % 4096
  · rw [if_pos h]
    exact memRead_memWrite_self u hwf h
  · rw [if_neg h]
    exact memRead_memWrite_of_ne s u h

/-! ### Bytes written upward -/

theorem memRead_memWriteAll_of_ne (bytes : List Byte) {b : Nat} : ∀ (s : State) (a : Nat),
    (∀ k < bytes.length, b % Config.memSize ≠ (a + k) % Config.memSize) →
    memRead (memWriteAll s a bytes) b = memRead s b := by
  induction bytes with
  | nil => intro s a _; rfl
  | cons u rest ih =>
    intro s a hne
    have hrest : ∀ k < rest.length, b % Config.memSize ≠ (a + 1 + k) % Config.memSize := by
      intro k hk
      rw [Nat.add_assoc, Nat.add_comm 1]
      exact hne (k + 1) (Nat.succ_lt_succ hk)
    exact (ih (memWrite s a u) (a + 1) hrest).trans (memRead_memWrite_of_ne s u (hne 0 (Nat.succ_pos _)))

/-- Byte `k` of a run written upward reads back: a run no longer than memory overwrites none of its own bytes. -/
theorem memRead_memWriteAll (bytes : List Byte) : ∀ (s : State) (a k : Nat), s.mem.wf → bytes.length ≤ Config.memSize →
    ∀ hk : k < bytes.length, memRead (memWriteAll s a bytes) (a + k) = bytes[k] := by
  induction bytes with
  | nil => intro s a k _ _ hk; cases hk
  | cons u rest ih =>
    intro s a k hwf hlen hk
    simp only [List.length_cons, Config.memSize] at hlen hk
    cases k with
    | zero =>
      have hne : ∀ j < rest.length, (a + 0) % Config.memSize ≠ (a + 1 + j) % Config.memSize := by
        intro j hj
        simp only [Config.memSize]
        omega
      exact (memRead_memWriteAll_of_ne rest (memWrite s a u) (a + 1) hne).trans (memRead_memWrite_self u hwf rfl)
    | succ k =>
      rw [show a + (k + 1) = a + 1 + k by omega]
      exact ih (memWrite s a u) (a + 1) k (wf_memWrite a u hwf) (Nat.le_of_succ_le hlen) (Nat.lt_of_succ_lt_succ hk)

/-! ### The stack as a list -/

/-- The byte that the `k`-th pop from now on would give, counted from 0. -/
def stackByte (s : State) (k : Nat) : Byte := memRead s (stackBase + (s.sp + BitVec.ofNat 8 (k + 1)).toNat)

/-- Popping moves SP up and reads; the bytes stay where they are (R61). -/
theorem popAll_eq (count : Nat) : ∀ s : State,
    popAll s count = (setSp s (s.sp + BitVec.ofNat 8 count), (List.range count).map (stackByte s)) := by
  induction count with
  | zero => intro s; simp [popAll, setSp]
  | succ count ih =>
    intro s
    have hsp (k : Nat) : s.sp + 1 + BitVec.ofNat 8 k = s.sp + BitVec.ofNat 8 (k + 1) := by
      rw [BitVec.ofNat_add, BitVec.add_assoc, BitVec.add_comm 1]
      rfl
    have hbyte (k : Nat) : stackByte (pop s).1 k = stackByte s (k + 1) := by
      unfold stackByte
      rw [memRead_pop, pop_sp, hsp]
    rw [List.range_succ_eq_map, List.map_cons, List.map_map]
    simp only [popAll, ih, pop_sp, hsp]
    exact Prod.ext rfl (congrArg (stackByte s 0 :: ·) (List.map_congr_left fun k _ => hbyte k))

theorem pushAll_append (u : Byte) (bytes : List Byte) : ∀ s : State,
    pushAll s (bytes ++ [u]) = push (pushAll s bytes) u := by
  induction bytes with
  | nil => intro s; rfl
  | cons w rest ih => intro s; exact ih (push s w)

theorem wf_pushAll (bytes : List Byte) : ∀ s : State, s.mem.wf → (pushAll s bytes).mem.wf := by
  induction bytes with
  | nil => intro s h; exact h
  | cons u rest ih => intro s h; exact ih (push s u) (wf_push u h)

theorem pushAll_sp (bytes : List Byte) : ∀ s : State, (pushAll s bytes).sp = s.sp - BitVec.ofNat 8 bytes.length := by
  induction bytes with
  | nil => intro s; simp [pushAll]
  | cons u rest ih =>
    intro s
    simp only [pushAll, ih, push_sp, List.length_cons, BitVec.ofNat_add]
    bv_omega

theorem stackByte_push_zero {s : State} (u : Byte) (h : s.mem.wf) : stackByte (push s u) 0 = u :=
  (pop_push u h).1

/-- A push moves the bytes already on the stack one down, all but the one 256 below, which it overwrites. -/
theorem stackByte_push_succ {s : State} (u : Byte) {k : Nat} (hk : k < 255) :
    stackByte (push s u) (k + 1) = stackByte s k := by
  have hsp : s.sp - 1 + BitVec.ofNat 8 (k + 1 + 1) = s.sp + BitVec.ofNat 8 (k + 1) := by bv_omega
  have hne : s.sp + BitVec.ofNat 8 (k + 1) ≠ s.sp := by bv_omega
  unfold stackByte
  rw [push_sp, hsp, memRead_push_of_ne s u (stackAddr_ne hne)]

/-- What stands on the stack after pushes, the last pushed first. -/
theorem stackByte_pushAll {s : State} {bytes : List Byte} (hwf : s.mem.wf) (hlen : bytes.length ≤ 256) :
    (List.range bytes.length).map (stackByte (pushAll s bytes)) = bytes.reverse := by
  induction bytes using List.reverseRecOn with
  | nil => rfl
  | append_singleton rest u ih =>
    rw [List.length_append, List.length_singleton] at hlen ⊢
    rw [List.range_succ_eq_map, List.map_cons, List.map_map, pushAll_append, List.reverse_concat,
      stackByte_push_zero u (wf_pushAll rest s hwf), ← ih (by omega)]
    refine congrArg (u :: ·) (List.map_congr_left fun k hk => ?_)
    have hk' := List.mem_range.mp hk
    exact stackByte_push_succ u (by omega)

/-- Settles O19: popping reads off the stack what pushing, byte by byte, laid there in reverse. -/
theorem stackIsLastInFirstOut : Obligations.StackIsLastInFirstOut := by
  intro s bytes hwf hlen
  rw [popAll_eq]
  refine ⟨stackByte_pushAll hwf hlen, ?_⟩
  rw [setSp_sp, pushAll_sp]
  bv_omega

end Sys2Proof.Machine
end

section
/-! CALL and RET (R103, R105, R63, R112 of spec/40_step_and_control_flow.md) and the indexed jump (R110). -/

namespace Sys2Proof.Machine

theorem exec_jpV0 (nnn : Addr) (s : State) :
    exec (.jpV0 nnn) s = .next (setPc s (addrOperand nnn + wideByte (getV s 0))) := rfl

theorem after_ret_sp (s : State) : (after .ret s).sp = s.sp + 2 := BitVec.add_assoc s.sp 1 1

theorem after_call_sp (nnn : Addr) (s : State) : (after (.call nnn) s).sp = s.sp - 2 := by
  show s.sp - 1 - 1 = s.sp - 2
  bv_omega

/-- CALL's first push, the low byte, stands at the old SP: the second one is at another address. -/
theorem memRead_after_call_low (nnn : Addr) {s : State} (hwf : s.mem.wf) :
    memRead (after (.call nnn) s) (0x100 + s.sp.toNat) = (s.pc + 2).extractLsb' 0 8 := by
  have hne : s.sp ≠ s.sp - 1 := by bv_omega
  exact (memRead_push_of_ne (push s ((s.pc + 2).extractLsb' 0 8)) ((s.pc + 2).extractLsb' 8 8) (stackAddr_ne hne)).trans
    (memRead_push_self _ hwf)

theorem memRead_after_call_high (nnn : Addr) {s : State} (hwf : s.mem.wf) :
    memRead (after (.call nnn) s) (0x100 + (s.sp - 1).toNat) = (s.pc + 2).extractLsb' 8 8 :=
  memRead_push_self ((s.pc + 2).extractLsb' 8 8) (wf_push ((s.pc + 2).extractLsb' 0 8) hwf)

/-- Settles O24: two pushes at distinct addresses, low byte first. -/
theorem callSavesTheReturnAddress : Obligations.CallSavesTheReturnAddress := by
  intro nnn s hwf
  exact ⟨after (.call nnn) s, exec_eq_after (.call nnn) s, after_pc (.call nnn) s, after_call_sp nnn s,
    memRead_after_call_low nnn hwf, memRead_after_call_high nnn hwf⟩

/-- Two bytes joined, as a number. -/
theorem toNat_append_bytes (hi lo : Byte) : (hi ++ lo : Word).toNat = hi.toNat * 256 + lo.toNat := by
  rw [BitVec.toNat_append, ← Nat.shiftLeft_add_eq_or_of_lt lo.isLt, Nat.shiftLeft_eq]

/-- Settles O25: two pops, high byte first. -/
theorem returnPopsHighThenLow : Obligations.ReturnPopsHighThenLow := by
  intro s
  refine ⟨after .ret s, exec_eq_after .ret s, after_ret_sp s, ?_⟩
  rw [after_ret_pc, toNat_append_bytes]

/-- Settles O20: RET's two pops read the two bytes CALL pushed, which joined again are the CALL's PC + 2. -/
theorem returnGoesBackAfterTheCall : Obligations.ReturnGoesBackAfterTheCall := by
  intro nnn s hwf
  refine ⟨after (.call nnn) s, exec_eq_after (.call nnn) s, fun r => rfl, fun u hsp hlow hhigh => ?_⟩
  rw [after_call_sp] at hsp
  have hsp1 : u.sp + 1 = s.sp - 1 := by bv_omega
  have hsp2 : u.sp + 2 = s.sp := by bv_omega
  refine ⟨after .ret u, exec_eq_after .ret u, ?_, (after_ret_sp u).trans hsp2, fun r => rfl⟩
  rw [after_ret_pc, hsp1, hsp2, hlow, hhigh, memRead_after_call_low nnn hwf, memRead_after_call_high nnn hwf]
  exact wordBytes_join (s.pc + 2)

theorem toNat_wideByte (u : Byte) : (wideByte u).toNat = u.toNat := BitVec.toNat_setWidth_of_le (by decide)

/-- Settles O22: the greatest sum, 0xFFF + 0xFF, is far below the top of PC's range. -/
theorem indexedJumpAddsV0 : Obligations.IndexedJumpAddsV0 := by
  intro nnn s
  have hlt : (addrOperand nnn).toNat + (wideByte (getV s 0)).toNat < 2 ^ 16 := by
    rw [toNat_addrOperand, toNat_wideByte]
    omega
  refine ⟨decodeWord_encode (.jpV0 nnn), _, exec_jpV0 nnn s, ?_, getV_setPc s _⟩
  rw [setPc_pc, BitVec.toNat_add_of_lt hlt, toNat_addrOperand, toNat_wideByte]

end Sys2Proof.Machine
end

section
/-! Arithmetic, logic and the free byte (R132, R134 to R137, R142, R143, R146 of spec/41_alu.md). -/

namespace Sys2Proof.Machine

variable {s : State}

theorem exec_addImm (x : Reg) (kk : Byte) : exec (.addImm x kk) s = .next (advance (setV s x (getV s x + kk))) := rfl

theorem exec_orReg (x y : Reg) : exec (.orReg x y) s = .next (advance (setV s x (getV s x ||| getV s y))) := rfl

theorem exec_andReg (x y : Reg) : exec (.andReg x y) s = .next (advance (setV s x (getV s x &&& getV s y))) := rfl

theorem exec_xorReg (x y : Reg) : exec (.xorReg x y) s = .next (advance (setV s x (getV s x ^^^ getV s y))) := rfl

theorem exec_addReg (x y : Reg) : exec (.addReg x y) s =
    .next (advance (resultThenFlag s x (getV s x + getV s y) (carryFlag (getV s x) (getV s y)))) := rfl

theorem exec_rnd (x : Reg) (kk : Byte) :
    exec (.rnd x kk) s = .next (advance (rndDrawn (setV s x (rndByte s &&& kk)))) := rfl

/-- A bitwise operation into Vx: every bit by the operation's own law. -/
theorem exec_logic_spec {i : Instr} {x : Reg} {u : Byte} {bits : Nat → Bool}
    (hexec : exec i s = .next (advance (setV s x u))) (hbits : ∀ b, u.getLsbD b = bits b) :
    ∃ t, exec i s = .next t ∧ (x ≠ 15 → getV t 15 = getV s 15) ∧ ∀ b < 8, (getV t x).getLsbD b = bits b := by
  obtain ⟨t, hnext, hx, hvf⟩ := exec_load_spec hexec
  exact ⟨t, hnext, hvf, fun b _ => by rw [hx, hbits]⟩

/-- Settles O27: the three are one write of Vx, bit by bit. -/
theorem logicWorksBitByBit : Obligations.LogicWorksBitByBit := by
  intro x y s
  exact ⟨exec_logic_spec (exec_orReg x y) fun _ => BitVec.getLsbD_or,
    exec_logic_spec (exec_andReg x y) fun _ => BitVec.getLsbD_and,
    exec_logic_spec (exec_xorReg x y) fun _ => BitVec.getLsbD_xor⟩

/-- Settles O32: the write of Vx is the AND, and the count of draws goes up once. -/
theorem randomByteIsMasked : Obligations.RandomByteIsMasked := by
  intro x kk s
  refine ⟨_, exec_rnd x kk, rfl, fun b _ => ?_⟩
  rw [getV_advance, getV_rndDrawn, getV_setV_self, BitVec.getLsbD_and]
  rfl

theorem toNat_flagByte_carryFlag (a b : Byte) :
    (flagByte (carryFlag a b)).toNat = if a.toNat + b.toNat > 255 then 1 else 0 := by
  rw [toNat_flagByte, carryFlag, Bool.toNat, Bool.cond_decide]

/-- Settles O28: both sums are modulo 256; 8xy4's second write, to VF, does not reach another Vx. -/
theorem additionLaw : Obligations.AdditionLaw := by
  intro x y kk s
  refine ⟨⟨decodeWord_encode (.addImm x kk), ?_⟩, _, exec_addReg x y, fun hx => ⟨?_, ?_⟩⟩
  · obtain ⟨t, hnext, hsum, hvf⟩ := exec_load_spec (exec_addImm (s := s) x kk)
    exact ⟨t, hnext, by rw [hsum, BitVec.toNat_add], hvf⟩
  · rw [getV_advance, getV_resultThenFlag_self _ _ hx, BitVec.toNat_add]
  · rw [getV_advance, ← regF_eq, getV_resultThenFlag_regF, toNat_flagByte_carryFlag]

/-- A result and then a flag with VF as the destination: the flag stays. -/
theorem exec_flagLast_spec {i : Instr} {u : Byte} {flag : Bool} {c : Prop} [Decidable c]
    (hexec : exec i s = .next (advance (resultThenFlag s 15 u flag))) (hflag : flag = decide c) :
    ∃ t, exec i s = .next t ∧ getV t 15 = if c then 0x01 else 0x00 := by
  refine ⟨_, hexec, ?_⟩
  rw [getV_advance, ← regF_eq, getV_resultThenFlag_regF, hflag, flagByte]
  exact if_congr decide_eq_true_iff rfl rfl

/-- A flag and then a result with VF as the destination: the result stays. -/
theorem exec_resultLast_spec {i : Instr} {u : Byte} {flag : Bool} {n : Nat}
    (hexec : exec i s = .next (advance (flagThenResult s 15 flag u))) (hresult : u.toNat = n) :
    ∃ t, exec i s = .next t ∧ (getV t 15).toNat = n :=
  ⟨_, hexec, by rw [getV_advance, getV_flagThenResult_self, hresult]⟩

/-- Settles O31: by the order of the two writes. -/
theorem flagRegisterAliasing : Obligations.FlagRegisterAliasing := by
  intro y s
  exact ⟨exec_flagLast_spec (exec_addReg 15 y) rfl, exec_flagLast_spec (exec_sub 15 y) rfl,
    exec_flagLast_spec (exec_subn 15 y) rfl, exec_resultLast_spec (exec_shr 15 y) (toNat_byte_shiftRight_one _),
    exec_resultLast_spec (exec_shl 15 y) (toNat_byte_shiftLeft_one _)⟩

end Sys2Proof.Machine
end

section
/-! The index register, the stores and the load (R160, R161, R163 to R165 of spec/42_index_and_memory.md), the key skips
and the key-wait's start (R200, R201, R203 of spec/44_keys_and_timers.md). -/

namespace Sys2Proof.Machine

theorem exec_ldI (nnn : Addr) (s : State) : exec (.ldI nnn) s = .next (advance (setI s (addrOperand nnn))) := rfl

theorem exec_addI (x : Reg) (s : State) :
    exec (.addI x) s = .next (advance (setI s (s.i + wideByte (getV s x)))) := rfl

/-- What Fx33 stores, in the order of its addresses (R163). -/
def decimalDigits (u : Byte) : List Byte := [hundreds u, tens u, ones u]

/-- Fx33's three stores are one run of bytes from I upward. -/
theorem exec_ldB (x : Reg) (s : State) :
    exec (.ldB x) s = .next (advance (memWriteAll s s.i.toNat (decimalDigits (getV s x)))) := rfl

theorem exec_ldMemVx (x : Reg) (s : State) : exec (.ldMemVx x) s = .next (advance (storeRegs s (x.toNat + 1))) := rfl

theorem exec_ldVxMem (x : Reg) (s : State) : exec (.ldVxMem x) s = .next (advance (loadRegs s (x.toNat + 1))) := rfl

theorem exec_skp (x : Reg) (s : State) : exec (.skp x) s = .next (skipIf s (getKey s (keySelect (getV s x)))) := rfl

theorem exec_sknp (x : Reg) (s : State) : exec (.sknp x) s = .next (skipIf s (!getKey s (keySelect (getV s x)))) := rfl

theorem exec_ldVxK (x : Reg) (s : State) : exec (.ldVxK x) s = .next (advance (setWait s (some x))) := rfl

/-- Settles O33: each word selects its own row, and its execution writes I alone. -/
theorem indexLoadAndAdd : Obligations.IndexLoadAndAdd := by
  intro nnn x s
  refine ⟨⟨decodeWord_encode (.ldI nnn), _, exec_ldI nnn s, toNat_addrOperand nnn, fun r => rfl⟩,
    ⟨decodeWord_encode (.addI x), _, exec_addI x s, ?_, fun r => rfl⟩⟩
  rw [advance_i, setI_i, BitVec.toNat_add, toNat_wideByte]

/-! ### Fx33 -/

theorem toNat_hundreds (u : Byte) : (hundreds u).toNat = u.toNat / 100 := by
  rw [hundreds, BitVec.toNat_ofNat]
  omega

theorem toNat_tens (u : Byte) : (tens u).toNat = u.toNat / 10 % 10 := by
  rw [tens, BitVec.toNat_ofNat]
  omega

theorem toNat_ones (u : Byte) : (ones u).toNat = u.toNat % 10 := by
  rw [ones, BitVec.toNat_ofNat]
  omega

theorem memRead_decimalDigits {s : State} (hwf : s.mem.wf) (a : Nat) (u : Byte) :
    memRead (memWriteAll s a (decimalDigits u)) a = hundreds u ∧
    memRead (memWriteAll s a (decimalDigits u)) (a + 1) = tens u ∧
    memRead (memWriteAll s a (decimalDigits u)) (a + 2) = ones u := by
  have hlen : (decimalDigits u).length = 3 := rfl
  have hread (k : Nat) := memRead_memWriteAll (decimalDigits u) s a k hwf (by rw [hlen]; decide)
  exact ⟨hread 0 (by omega), hread 1 (by omega), hread 2 (by omega)⟩

/-- Settles O35: the three stored bytes are the digits of Vx. -/
theorem decimalDigitsAreStored : Obligations.DecimalDigitsAreStored := by
  intro x s hwf
  obtain ⟨hhundreds, htens, hones⟩ := memRead_decimalDigits hwf s.i.toNat (getV s x)
  refine ⟨_, exec_ldB x s, memWriteAll_i s _ _, ?_⟩
  simp only [memRead_advance, hhundreds, htens, hones, toNat_hundreds, toNat_tens, toNat_ones]
  omega

/-! ### Fx55 and Fx65 -/

/-- Settles O36: the run of Fx55 read back. -/
theorem storeWritesV0ToVx : Obligations.StoreWritesV0ToVx := by
  intro x s hwf
  refine ⟨_, exec_ldMemVx x s, storeRegs_i s _, getV_storeRegs s _, fun r hr => ?_⟩
  have hread := memRead_storeRegs hwf (Nat.lt_succ_of_le hr) (Nat.succ_le_of_lt x.isLt)
  rw [BitVec.ofNat_toNat, BitVec.setWidth_eq] at hread
  exact hread

/-- Settles O37: the run of Fx65, register by register. -/
theorem loadReadsV0ToVx : Obligations.LoadReadsV0ToVx := by
  intro x s
  refine ⟨_, exec_ldVxMem x s, loadRegs_i s _, loadRegs_mem s _, fun r => ?_⟩
  rw [getV_advance, getV_loadRegs s _ (Nat.succ_le_of_lt x.isLt)]
  exact if_congr Nat.lt_succ_iff rfl rfl

/-! ### Keys -/

/-- Settles O44: the skips test the flag of the key that the low nibble selects. -/
theorem keySkipsTestTheSelectedKey : Obligations.KeySkipsTestTheSelectedKey := by
  intro x s k hpc hk
  have hkey : keySelect (getV s x) = k := by
    rw [keySelect_eq, ← hk, BitVec.ofNat_toNat, BitVec.setWidth_eq]
  refine ⟨⟨_, exec_skp x s, rfl, ?_⟩, ⟨_, exec_sknp x s, rfl, ?_⟩⟩
  · rw [toNat_skipIf_pc hpc, hkey]
  · rw [toNat_skipIf_pc hpc, hkey]
    exact if_congr (Bool.not_eq_true' _).to_iff rfl rfl

/-- Settles O46: the execution is one write of WAIT and the advance. -/
theorem getKeyEntersTheWait : Obligations.GetKeyEntersTheWait := by
  intro x s
  exact ⟨_, exec_ldVxK x s, rfl, rfl, fun r => rfl⟩

end Sys2Proof.Machine
end

section
/-! The interface events (R236 to R245 of spec/60_exceptions.md), RESET's values (R34 of spec/10_state.md) and runs of
events: every event answers a next state, and what each one keeps holds along every sequence. -/

namespace Sys2Proof.Machine

/-! ### RESET and the queries -/

/-- Settles O15: the reset memory lists no cell. -/
theorem resetMemoryIsCanonical : Obligations.ResetMemoryIsCanonical := by
  unfold Obligations.ResetMemoryIsCanonical
  decide

/-- Settles O52: the RESET event is defined as that state. -/
theorem resetFromAnyState : Obligations.ResetFromAnyState := by
  intro s
  exact ⟨resetEvent s, rfl, rfl⟩

/-- RESET's memory lists no cell, so it reads as unlisted everywhere. -/
theorem memRead_reset (a : Nat) : memRead State.reset a = unlistedByte (a % Config.memSize) := rfl

/-- Past the font copy an unlisted byte is 0. -/
theorem unlistedByte_of_le {a : Nat} (h : 80 ≤ a) : unlistedByte a = 0x00 := by
  have hlen : fontTable.length ≤ a - fontOffset := h
  rw [unlistedByte, List.getD_eq_default _ _ hlen, ite_self]

/-- Settles O17: the font bytes and the zeros of memory are the unlisted bytes, the rest is written in `State.reset`. -/
theorem resetLeavesTheseValues : Obligations.ResetLeavesTheseValues := by
  refine ⟨by decide, rfl, by decide, rfl, by decide, by decide, fun a hlow hhigh => ?_, by decide, rfl, rfl, rfl, rfl,
    by decide, pixel_clearVram⟩
  rw [memRead_reset, Nat.mod_eq_of_lt (show a < Config.memSize from hhigh), unlistedByte_of_le hlow]

/-- Settles O53: the sound output compares ST with 0, the rest is read off the state. -/
theorem queriesAnswerAndChangeNothing : Obligations.QueriesAnswerAndChangeNothing := by
  intro s
  have hsound : soundActive s = decide (s.st.toNat > 0) := by
    rw [Bool.eq_iff_iff, soundActive_iff, decide_eq_true_iff]
    exact Nat.pos_iff_ne_zero.symm
  exact ⟨congrArg Output.bit hsound, rfl, fun r => rfl, rfl, rfl, rfl, fun d => rfl⟩

/-! ### LOAD -/

theorem handle_load (bytes : List Byte) (s : State) : handle (.load bytes) s = .next (loadEvent bytes s) := rfl

theorem loadFits_iff {bytes : List Byte} : loadFits bytes = true ↔ bytes.length ≤ 3584 := decide_eq_true_iff

/-- Settles O51: LOAD is one run of bytes from 0x200, which ends below 0x1000, or nothing. -/
theorem loadCopiesOrIsRejected : Obligations.LoadCopiesOrIsRejected := by
  intro bytes s hwf
  refine ⟨loadEvent bytes s, handle_load bytes s, fun hfits => ?_, fun hlong => ?_⟩
  · have hload : loadEvent bytes s = memWriteAll s Config.progBase bytes := if_pos (loadFits_iff.mpr hfits)
    have hlen : bytes.length ≤ Config.memSize := hfits.trans (by decide)
    rw [hload]
    refine ⟨if_pos (loadFits_iff.mpr hfits), memWriteAll_eq bytes s _, fun k hk => ?_, fun a ha houtside => ?_⟩
    · exact memRead_memWriteAll bytes s Config.progBase k hwf hlen hk
    · refine memRead_memWriteAll_of_ne bytes s Config.progBase fun k hk => ?_
      simp only [Config.memSize, Config.progBase]
      omega
  · have hnot : ¬ loadFits bytes = true := fun h => Nat.not_le_of_lt hlong (loadFits_iff.mp h)
    exact ⟨if_neg hnot, if_neg hnot⟩

/-! ### KEY -/

theorem handle_key (k : Nibble) (down : Bool) (s : State) : handle (.key k down) s = .next (keyEvent k down s) := rfl

theorem keyEvent_of_waiting {s : State} {r : Reg} (k : Nibble) (h : s.wait = some r) :
    keyEvent k true s = setWait (setV (setKey s k true) r (keyByte k)) none := by
  unfold keyEvent
  rw [h]

theorem keyEvent_of_not_waiting {s : State} (k : Nibble) {down : Bool} (h : down = false ∨ s.wait = none) :
    keyEvent k down s = setKey s k down := by
  obtain ⟨r, rfl, hwait, -⟩ | ⟨-, heq⟩ := keyEvent_cases k down s
  · simp [hwait] at h
  · exact heq

theorem toNat_keyByte (k : Nibble) : (keyByte k).toNat = k.toNat := BitVec.toNat_setWidth_of_le (by decide)

theorem getKey_keyEvent (k : Nibble) (down : Bool) (s : State) (j : Nibble) :
    getKey (keyEvent k down s) j = if j = k then down else getKey s j := by
  obtain ⟨r, rfl, -, heq⟩ | ⟨-, heq⟩ := keyEvent_cases k down s
  · rw [heq]; exact getKey_setKey s k j true
  · rw [heq]; exact getKey_setKey s k j down

theorem keyEvent_pc (k : Nibble) (down : Bool) (s : State) : (keyEvent k down s).pc = s.pc := by
  obtain ⟨r, -, -, heq⟩ | ⟨-, heq⟩ := keyEvent_cases k down s
  · rw [heq]; rfl
  · rw [heq]; rfl

/-- Settles O48: by whether the event is a key-down in a key-wait. -/
theorem keyEventResolvesTheWait : Obligations.KeyEventResolvesTheWait := by
  intro k down s
  refine ⟨keyEvent k down s, handle_key k down s, getKey_keyEvent k down s, keyEvent_pc k down s, ?_, fun hcase => ?_⟩
  · rintro r rfl hwait
    rw [keyEvent_of_waiting k hwait]
    refine ⟨rfl, ?_, frame_trans (frame_trans (frame_setKey (by decide)) (frame_setV rfl)) (frame_setWait (by decide))⟩
    rw [getV_setWait, getV_setV_self, toNat_keyByte]
  · rw [keyEvent_of_not_waiting k hcase]
    exact frame_setKey (by decide)

/-! ### WAIT over every event -/

/-- A step leaves WAIT, or executes Fx0A with no wait pending. -/
theorem step_wait {s t : State} (h : step s = .next t) : t.wait = waitAfter .step s := by
  unfold waitAfter
  obtain ⟨r, hwait, rfl⟩ | ⟨hwait, i, hdec, hexec⟩ | ⟨hwait, w, hdec, rfl⟩ := step_cases h
  · simp only [hwait]
  · rw [eq_after_of_exec hexec, hwait, hdec]
    cases i with
    | ldVxK x => rfl
    | ldMemVx x => exact (storeRegs_wait s _).trans hwait
    | ldVxMem x => exact (loadRegs_wait s _).trans hwait
    | _ => exact hwait
  · rw [hwait, hdec]
    exact hwait

theorem loadEvent_wait (bytes : List Byte) (s : State) : (loadEvent bytes s).wait = s.wait := by
  obtain ⟨-, heq⟩ | ⟨-, heq⟩ := loadEvent_cases bytes s
  · rw [heq, memWriteAll_wait]
  · rw [heq]

theorem keyEvent_wait (k : Nibble) (down : Bool) (s : State) :
    (keyEvent k down s).wait = if down then none else s.wait := by
  obtain ⟨r, rfl, -, heq⟩ | ⟨hcase, heq⟩ := keyEvent_cases k down s
  · rw [heq]; rfl
  · rw [heq, setKey_wait]
    obtain rfl | hwait := hcase
    · rfl
    · rw [hwait, ite_self]

theorem exists_handle_eq_next (e : Event) (s : State) : ∃ t, handle e s = .next t := by
  cases e with
  | step => exact exists_step_eq_next s
  | _ => exact ⟨_, rfl⟩

theorem handle_wait {e : Event} {s t : State} (h : handle e s = .next t) : t.wait = waitAfter e s := by
  cases e with
  | step => exact step_wait h
  | load bytes => cases h; exact loadEvent_wait bytes s
  | key k down => cases h; rw [keyEvent_wait]; cases down <;> rfl
  | _ => cases h; rfl

/-- Settles O49: every event has a next state, with the WAIT of R213. -/
theorem keyWaitStateMachine : Obligations.KeyWaitStateMachine := by
  intro e s
  obtain ⟨t, h⟩ := exists_handle_eq_next e s
  exact ⟨t, h, handle_wait h⟩

/-! ### Sequences of events and of steps -/

theorem runEvents_cons {e : Event} {s t : State} (h : handle e s = .next t) (es : List Event) :
    runEvents (e :: es) s = runEvents es t := by
  rw [runEvents, h]

theorem run_succ {s t : State} (h : step s = .next t) (k : Nat) : core.run (k + 1) s = core.run k t := by
  have hstep : core.step s = .next t := h
  simp only [Host.Core.run, hstep]

/-- An event's state as far as memory goes: canonical from canonical. -/
theorem wf_handle {e : Event} {s t : State} (hwf : s.mem.wf) (h : handle e s = .next t) : t.mem.wf := by
  cases e with
  | reset => cases h; exact resetMemoryIsCanonical
  | load bytes =>
    cases h
    obtain ⟨-, heq⟩ | ⟨-, heq⟩ := loadEvent_cases bytes s
    · rw [heq]; exact wf_memWriteAll bytes s _ hwf
    · rw [heq]; exact hwf
  | step => exact stepKeepsMemoryCanonical s t hwf h
  | key k down =>
    cases h
    obtain ⟨r, -, -, heq⟩ | ⟨-, heq⟩ := keyEvent_cases k down s
    · rw [heq]; exact hwf
    · rw [heq]; exact hwf
  | _ => cases h; exact hwf

/-- Settles O14, by induction on the list of events. -/
theorem eventsKeepMemoryCanonical : Obligations.EventsKeepMemoryCanonical := by
  intro es
  induction es with
  | nil => intro s t hwf h; cases h; exact hwf
  | cons e es ih =>
    intro s t hwf h
    obtain ⟨u, hu⟩ := exists_handle_eq_next e s
    rw [runEvents_cons hu] at h
    exact ih u t (wf_handle hwf hu) h

theorem exists_runEvents_eq_next (es : List Event) : ∀ s : State, ∃ t, runEvents es s = .next t := by
  induction es with
  | nil => exact fun s => ⟨s, rfl⟩
  | cons e es ih =>
    intro s
    obtain ⟨u, hu⟩ := exists_handle_eq_next e s
    rw [runEvents_cons hu]
    exact ih u

theorem safeFor_all (k : Nat) : ∀ s : State, safeFor k s := by
  induction k with
  | zero => exact fun s => ⟨s, rfl⟩
  | succ k ih =>
    intro s
    obtain ⟨u, hu⟩ := exists_step_eq_next s
    unfold safeFor
    rw [run_succ hu]
    exact ih u

/-- Settles O16: each event and each step has a next state, so by induction every sequence of them has. -/
theorem everyRunGoesOn : Obligations.EveryRunGoesOn := ⟨exists_runEvents_eq_next, safeFor_all⟩

end Sys2Proof.Machine
end

section
/-! Sprites (R185 to R187 of spec/43_display.md): the rows of Dxyn one after another, as one XOR of the whole sprite. -/

namespace Sys2Proof.Machine

/-- Settles O40: the two XORs of a pixel cancel, and the second call meets as lit the pixels the first one lit. -/
theorem drawByteTwiceRestores : Obligations.DrawByteTwiceRestores := by
  intro x row d g
  refine ⟨vram_ext fun q c => ?_, ?_⟩
  · rw [pixel_drawByte, pixel_drawByte, Bool.xor_assoc, Bool.xor_self, Bool.xor_false]
  · rw [drawByte_collides_iff]
    refine exists_congr fun c => ?_
    rw [pixel_drawByte, decide_eq_true rfl, Bool.true_and, and_comm]
    exact and_congr_right fun hcover => by rw [hcover, Bool.xor_true, Bool.not_eq_true']

/-- The sprite row that falls on a frame row, around the bottom edge. -/
theorem eq_spriteRow_iff {vy : Byte} {q : Fin 32} {r : Nat} (hr : r < 32) :
    q = spriteRow vy r ↔ spriteRowAt vy q = r := by
  have hvy : vy.toNat < 256 := vy.isLt
  rw [Fin.ext_iff, spriteRow, Fin.val_ofNat, spriteRowAt]
  omega

theorem spriteCovers_spriteRow_self (s : State) (vx vy : Byte) {k : Nat} (hk : k < 32) (c : Fin 64) :
    spriteCovers s vx vy k (spriteRow vy k) c = false := by
  rw [spriteCovers, (eq_spriteRow_iff hk).mp rfl, decide_eq_false (Nat.lt_irrefl k), Bool.false_and]

/-- One more row of the sprite covers its own frame row, on which no earlier one lies, and nothing else. -/
theorem spriteCovers_succ (s : State) (vx vy : Byte) {k : Nat} (hk : k < 32) (q : Fin 32) (c : Fin 64) :
    spriteCovers s vx vy (k + 1) q c =
      if q = spriteRow vy k then byteCovers vx (memRead s (indexAddr s k)) c else spriteCovers s vx vy k q c := by
  unfold spriteCovers
  split
  · next hq =>
    rw [(eq_spriteRow_iff hk).mp hq, decide_eq_true (Nat.lt_succ_self k), Bool.true_and]
    rfl
  · next hq =>
    have hne : spriteRowAt vy q ≠ k := mt (eq_spriteRow_iff hk).mpr hq
    have hlt : spriteRowAt vy q < k + 1 ↔ spriteRowAt vy q < k := by omega
    simp only [hlt]

/-- The first `k` rows of a sprite, pixel by pixel. -/
theorem pixel_drawRows (s : State) (vx vy : Byte) {k : Nat} (hk : k ≤ 32) (q : Fin 32) (c : Fin 64) :
    pixel (drawRows s vx vy k).1 q c = (pixel s.vram q c ^^ spriteCovers s vx vy k q c) := by
  induction k with
  | zero => simp [drawRows, spriteCovers]
  | succ k ih =>
    rw [drawRows_succ, pixel_drawByte, ih (by omega), spriteCovers_succ s vx vy hk]
    by_cases hq : q = spriteRow vy k
    · rw [if_pos hq, hq, spriteCovers_spriteRow_self s vx vy hk, decide_eq_true rfl, Bool.xor_false, Bool.true_and]
    · rw [if_neg hq, decide_eq_false hq, Bool.false_and, Bool.xor_false]

/-- The collision flag after `k` rows: no row has drawn over another's pixels, so each meets the pixels of the start. -/
theorem drawRows_collides_iff (s : State) (vx vy : Byte) {k : Nat} (hk : k ≤ 32) :
    (drawRows s vx vy k).2 = true ↔ ∃ q c, pixel s.vram q c = true ∧ spriteCovers s vx vy k q c = true := by
  induction k with
  | zero => simp [drawRows, spriteCovers]
  | succ k ih =>
    have hfresh := spriteCovers_spriteRow_self s vx vy hk
    have hpixel (c : Fin 64) : pixel (drawRows s vx vy k).1 (spriteRow vy k) c = pixel s.vram (spriteRow vy k) c := by
      rw [pixel_drawRows s vx vy (Nat.le_of_succ_le hk), hfresh, Bool.xor_false]
    rw [drawRows_succ, Bool.or_eq_true, ih (by omega), drawByte_collides_iff]
    simp only [hpixel, spriteCovers_succ s vx vy hk]
    constructor
    · rintro (⟨q, c, hlit, hcover⟩ | ⟨c, hlit, hcover⟩)
      · have hq : q ≠ spriteRow vy k := by
          rintro rfl
          rw [hfresh] at hcover
          cases hcover
        exact ⟨q, c, hlit, by rwa [if_neg hq]⟩
      · exact ⟨spriteRow vy k, c, hlit, by rwa [if_pos rfl]⟩
    · rintro ⟨q, c, hlit, hcover⟩
      split at hcover
      · next hq => exact .inr ⟨c, hq ▸ hlit, hcover⟩
      · exact .inl ⟨q, c, hlit, hcover⟩

theorem exec_drw (x y : Reg) (n : Nibble) (s : State) : exec (.drw x y n) s =
    .next (advance (setV (setVram s (drawRows s (getV s x) (getV s y) n.toNat).1) regF
      (flagByte (drawRows s (getV s x) (getV s y) n.toNat).2))) := rfl

theorem flagByte_eq_one_iff {b : Bool} : flagByte b = 0x01 ↔ b = true := by cases b <;> decide

theorem flagByte_eq_one_or_zero (b : Bool) : flagByte b = 0x01 ∨ flagByte b = 0x00 := by cases b <;> decide

/-- Settles O41: the rows of Dxyn together are the sprite. -/
theorem drawXorsTheSprite : Obligations.DrawXorsTheSprite := by
  intro x y n s
  have hn : n.toNat ≤ 32 := by omega
  refine ⟨_, exec_drw x y n s, pixel_drawRows s (getV s x) (getV s y) hn, ?_⟩
  rw [getV_advance, ← regF_eq, getV_setV_self]
  exact ⟨flagByte_eq_one_or_zero _, flagByte_eq_one_iff.trans (drawRows_collides_iff s (getV s x) (getV s y) hn)⟩

theorem framesDuringStep_of_drw {s : State} {x y : Reg} {n : Nibble} (hwait : s.wait = none)
    (hdec : decodeNext s = .instr (.drw x y n)) :
    framesDuringStep s = (List.range (n.toNat + 1)).map fun k => (drawRows s (getV s x) (getV s y) k).1 := by
  unfold framesDuringStep
  rw [hwait, hdec]

/-- Settles O43: the points of the step are the counts of rows drawn. -/
theorem snapshotDuringDrawSeesWholeRows : Obligations.SnapshotDuringDrawSeesWholeRows := by
  intro x y n s hwait hdec
  rw [framesDuringStep_of_drw hwait hdec]
  refine ⟨by rw [List.length_map, List.length_range], fun k hk => ?_⟩
  refine ⟨(drawRows s (getV s x) (getV s y) k).1, ?_, pixel_drawRows s (getV s x) (getV s y) (by omega)⟩
  rw [List.getElem?_map, List.getElem?_range (Nat.lt_succ_of_le hk)]
  rfl

end Sys2Proof.Machine
end

section
/-! What an instruction does not read (R26, R31, R35 of spec/10_state.md, R245 (a) of spec/60_exceptions.md): an update
of the timers, of ST or of the pixels before it shows after it as the same update. -/

namespace Sys2Proof.Machine

/-! ### The operations that are recursions, after an update they do not read -/

/-- An update that keeps I and V, and that stores pass by, is passed by the whole run of Fx55. -/
theorem storeRegs_comm (f : State → State) (hi : ∀ t, (f t).i = t.i) (hv : ∀ t r, getV (f t) r = getV t r)
    (hf : ∀ t a u, memWrite (f t) a u = f (memWrite t a u)) (s : State) (k : Nat) :
    storeRegs (f s) k = f (storeRegs s k) := by
  induction k with
  | zero => rfl
  | succ k ih => rw [storeRegs, storeRegs, ih, hf, hv, indexAddr, indexAddr, hi]

/-- An update that keeps I and memory, and that register writes pass by, is passed by the whole run of Fx65. -/
theorem loadRegs_comm (f : State → State) (hi : ∀ t, (f t).i = t.i) (hm : ∀ t a, memRead (f t) a = memRead t a)
    (hf : ∀ t x u, setV (f t) x u = f (setV t x u)) (s : State) (k : Nat) :
    loadRegs (f s) k = f (loadRegs s k) := by
  induction k with
  | zero => rfl
  | succ k ih => rw [loadRegs, loadRegs, ih, hf, hm, indexAddr, indexAddr, hi]

/-- A sprite depends on the buffer, on I and on memory alone. -/
theorem drawRows_congr {s t : State} (hvram : t.vram = s.vram) (hi : t.i = s.i) (hm : ∀ a, memRead t a = memRead s a)
    (vx vy : Byte) (k : Nat) : drawRows t vx vy k = drawRows s vx vy k := by
  induction k with
  | zero => rw [drawRows, drawRows, hvram]
  | succ k ih => rw [drawRows_succ, drawRows_succ, ih, hm, indexAddr, indexAddr, hi]

/-- What Dxyn does with the rows it has drawn: the buffer, VF and the implicit advance. -/
def drawn (s : State) (d : Vram × Bool) : State := advance (setV (setVram s d.1) regF (flagByte d.2))

theorem after_drw (x y : Reg) (n : Nibble) (s : State) :
    after (.drw x y n) s = drawn s (drawRows s (getV s x) (getV s y) n.toNat) := rfl

/-! ### TICK -/

theorem after_tickEvent {i : Instr} (s : State) (h : ∀ x, i ≠ .ldVxDt x ∧ i ≠ .ldDtVx x ∧ i ≠ .ldStVx x) :
    after i (tickEvent s) = tickEvent (after i s) := by
  cases i with
  | ldVxDt x | ldDtVx x | ldStVx x =>
    obtain ⟨hnotRead, hnotDt, hnotSt⟩ := h x
    contradiction
  | drw x y n =>
    exact congrArg (drawn (tickEvent s)) (drawRows_congr (s := s) (t := tickEvent s) rfl rfl (fun _ => rfl) _ _ _)
  | ldMemVx x =>
    exact congrArg advance (storeRegs_comm tickEvent (fun _ => rfl) (fun _ _ => rfl) (fun _ _ _ => rfl) s _)
  | ldVxMem x =>
    exact congrArg advance (loadRegs_comm tickEvent (fun _ => rfl) (fun _ _ => rfl) (fun _ _ _ => rfl) s _)
  | _ => rfl

/-- Settles O50: the TICK before the instruction is moved behind it. -/
theorem tickCommutesWithOtherInstructions : Obligations.TickCommutesWithOtherInstructions := by
  intro i s h
  exact ⟨after i s, exec_eq_after i s, (exec_eq_after i _).trans (congrArg _ (after_tickEvent s h))⟩

/-! ### ST -/

theorem after_setSt {i : Instr} (s : State) (u : Byte) (h : ∀ x, i ≠ .ldStVx x) :
    after i (setSt s u) = setSt (after i s) u := by
  cases i with
  | ldStVx x => exact absurd rfl (h x)
  | drw x y n =>
    exact congrArg (drawn (setSt s u)) (drawRows_congr (s := s) (t := setSt s u) rfl rfl (fun _ => rfl) _ _ _)
  | ldMemVx x =>
    exact congrArg advance (storeRegs_comm (setSt · u) (fun _ => rfl) (fun _ _ => rfl) (fun _ _ _ => rfl) s _)
  | ldVxMem x =>
    exact congrArg advance (loadRegs_comm (setSt · u) (fun _ => rfl) (fun _ _ => rfl) (fun _ _ _ => rfl) s _)
  | _ => rfl

/-- Settles O60: Fx18 overwrites the ST in which the two states differ. -/
theorem noInstructionReadsTheSoundTimer : Obligations.NoInstructionReadsTheSoundTimer := by
  intro i s u
  refine ⟨after i s, exec_eq_after i s, fun h => ?_, ?_⟩
  · exact (exec_eq_after i (setSt s u)).trans (congrArg _ (after_setSt s u h))
  · rintro ⟨x, rfl⟩
    rfl

/-! ### The pixels -/

theorem setV_setV (s : State) (x : Reg) (a b : Byte) : setV (setV s x a) x b = setV s x b := by
  unfold setV
  rw [Vector.set_set]

theorem setV_getV_self (s : State) (x : Reg) : setV s x (getV s x) = s := by
  unfold setV getV
  rw [Vector.set_getElem_self]

/-- The buffer is passed on as it was given, or cleared by 00E0. -/
theorem exists_after_setVram {i : Instr} (s : State) (g : Vram) (h : ∀ x y n, i ≠ .drw x y n) :
    ∃ g', after i (setVram s g) = setVram (after i s) g' := by
  cases i with
  | drw x y n => exact absurd rfl (h x y n)
  | cls => exact ⟨clearVram, rfl⟩
  | ldMemVx x =>
    exact ⟨g, congrArg advance
      (storeRegs_comm (setVram · g) (fun _ => rfl) (fun _ _ => rfl) (fun _ _ _ => rfl) s _)⟩
  | ldVxMem x =>
    exact ⟨g, congrArg advance
      (loadRegs_comm (setVram · g) (fun _ => rfl) (fun _ _ => rfl) (fun _ _ _ => rfl) s _)⟩
  | _ => exact ⟨g, rfl⟩

/-- Whatever the two sprites are, the states after them differ in the buffer and in VF. -/
theorem exists_after_drw_setVram (x y : Reg) (n : Nibble) (s : State) (g : Vram) :
    ∃ g' u, after (.drw x y n) (setVram s g) = setVram (setV (after (.drw x y n) s) 15 u) g' := by
  have hvf (d : Vram × Bool) (u : Byte) : setV (drawn s d) 15 u = advance (setV (setVram s d.1) regF u) :=
    congrArg advance (setV_setV (setVram s d.1) regF (flagByte d.2) u)
  rw [after_drw, after_drw]
  generalize drawRows (setVram s g) (getV (setVram s g) x) (getV (setVram s g) y) n.toNat = e
  exact ⟨e.1, flagByte e.2, by rw [hvf]; rfl⟩

/-- Settles O59: all but Dxyn give V as they would have, and Dxyn may differ in VF. -/
theorem pixelsReachAProgramOnlyThroughVf : Obligations.PixelsReachAProgramOnlyThroughVf := by
  intro i s g
  by_cases h : ∃ x y n, i = .drw x y n
  · obtain ⟨x, y, n, rfl⟩ := h
    obtain ⟨g', u, hg⟩ := exists_after_drw_setVram x y n s g
    exact ⟨after (.drw x y n) s, g', u, exec_eq_after _ s, (exec_eq_after _ (setVram s g)).trans (congrArg _ hg),
      fun hnot => absurd rfl (hnot x y n)⟩
  · obtain ⟨g', hg⟩ := exists_after_setVram s g fun x y n e => h ⟨x, y, n, e⟩
    refine ⟨after i s, g', getV (after i s) 15, exec_eq_after i s, ?_, fun _ => rfl⟩
    rw [setV_getV_self]
    exact (exec_eq_after i (setVram s g)).trans (congrArg _ hg)

end Sys2Proof.Machine
end
